-- ==== Sys2Proof/Word.lean ====
section
/-! DEFINITION. The 32-bit word of every register, immediate and memory word (00_scope.md R5, R7), and the
text types: the machine format of an instruction is a line of text (30_encoding.md R60, R11). -/
namespace Sys2Proof

/-- A W32 of 00_scope.md R7: `toInt` is its value, a signed 32-bit integer. -/
abbrev Word := BitVec 32

/-- `wrap32` of 00_scope.md R7: the one W32 congruent to `z` modulo 2^32. -/
def wrap32 (z : Int) : Word := BitVec.ofInt 32 z

/-- One line of instruction text, the contents of one slot of the instruction table (30_encoding.md R60). -/
abbrev Line := List Char

/-- One token of a line (30_encoding.md R63); a missing token is the empty one (D33). -/
abbrev Token := List Char

end Sys2Proof
end

