-- ==== Sys2Proof/Config.lean ====
section
/-! DEFINITION. The named parameters of 00_scope.md R6: fixed for a whole run, changed by no instruction. -/
namespace Sys2Proof

/-- The parameters of 00_scope.md R6 (IMEM and INSTR_COUNT, the loaded program, stand in `State`).
Their constraints are `Config.wf` (Sys2Proof/WellFormed.lean). -/
structure Config where
  /-- MEM_WORDS, the number of words of data memory (D7: OPEN). -/
  memWords : Nat
  /-- STACK_INIT, what reset puts in ESP and EBP (D8). -/
  stackInit : Word
  /-- END_MARKER, the whole text of the end-of-program line (D6). -/
  endMarker : Line
  /-- SUBL_IMPLEMENTED: whether `SUBL` is a mnemonic at all (D1, 90_conflicts.md C1). -/
  sublImplemented : Bool
deriving DecidableEq, Repr

/-- The defaults of 00_scope.md R6 for a memory of `words` words: STACK_INIT = (MEM_WORDS-1)*4,
END_MARKER = `END`, SUBL_IMPLEMENTED = true. -/
def Config.ofMemWords (words : Nat) : Config where
  memWords := words
  stackInit := wrap32 (((words : Int) - 1) * 4)
  endMarker := ['E', 'N', 'D']
  sublImplemented := true

/-- The parameters of `State.reset` and of the opcode table's words.
DESIGN CHOICE (log entry 1): R6 leaves MEM_WORDS open; 1024 is the number of 95_test_vectors.md. -/
def Config.default : Config := Config.ofMemWords 1024

end Sys2Proof
end

