-- ==== Sys2Proof/Syntax.lean ====
section
/-! DEFINITION. The abstract syntax: registers, operand descriptors, mnemonics, and one constructor of `Instr`
for each row of spec/opcode_table.json. -/
namespace Sys2Proof

/-- The closed set of six registers (10_state.md R21). -/
inductive Reg
  | eax | edx | ecx | esp | ebp | eip
deriving DecidableEq, Repr

/-- An operand descriptor, the result of `Resolve` (30_encoding.md R66). -/
inductive Operand
  /-- `Reg(r)`. -/
  | reg (r : Reg)
  /-- `Mem(r, off)`: base register and signed byte offset (20_memory.md R55). -/
  | mem (base : Reg) (off : Word)
  /-- `Imm(v)`. -/
  | imm (v : Word)
  /-- `Invalid`: no payload; the executor that receives it raises INSTRUCTION_ERROR (R70). -/
  | invalid
deriving DecidableEq, Repr

/-- The thirteen mnemonics of the opcode map (30_encoding.md R72). -/
inductive Mnemonic
  | movl | addl | subl | cmpl | pushl | popl | jmp | je | jne | jl | jg | call | ret
deriving DecidableEq, Repr

/-- One decoded line. A jump or CALL carries its label token as text, because the token goes to `FindLabel`
and not to `Resolve` (30_encoding.md R71). -/
inductive Instr
  /-- `MOVL t1 t2` (40_alu.md R93). -/
  | movl (src dst : Operand)
  /-- `ADDL t1 t2` (40_alu.md R94). -/
  | addl (src dst : Operand)
  /-- `SUBL t1 t2` (40_alu.md R95). -/
  | subl (src dst : Operand)
  /-- `CMPL t1 t2` (40_alu.md R96). -/
  | cmpl (src dst : Operand)
  /-- `PUSHL t1` (41_stack.md R111). -/
  | pushl (src : Operand)
  /-- `POPL t1` (41_stack.md R112). -/
  | popl (dst : Operand)
  /-- `JMP t1` (42_control_flow.md R122). -/
  | jmp (target : Token)
  /-- `JE t1` (42_control_flow.md R123). -/
  | je (target : Token)
  /-- `JNE t1` (42_control_flow.md R124). -/
  | jne (target : Token)
  /-- `JL t1` (42_control_flow.md R125). -/
  | jl (target : Token)
  /-- `JG t1` (42_control_flow.md R126). -/
  | jg (target : Token)
  /-- `CALL t1` (42_control_flow.md R128). -/
  | call (target : Token)
  /-- `RET` (42_control_flow.md R129). -/
  | ret
  /-- The end-of-program marker line, table row END (43_sequencer.md R142). -/
  | endMarker
  /-- A label line; `text` is the whole line, marker included (30_encoding.md R71, 43_sequencer.md R147). -/
  | label (text : Line)
  /-- Any other well-formed line, kept whole (30_encoding.md R73, 43_sequencer.md R146). -/
  | unrecognised (text : Line)
deriving DecidableEq, Repr

end Sys2Proof
end

