-- ==== Sys2Proof/Decode.lean ====
section
/-! DEFINITION. The text format both ways: the tokeniser, the Operand Resolver and the decoder of 30_encoding.md,
then the encoder written from the same tables, and the reading of an opcode-table word as a line (R77). -/
namespace Sys2Proof

/-! ### Characters and lines (R61, R63, R78) -/

/-- Printable ASCII, codes 0x20 to 0x7E (R61, D26). -/
def isPrintable (c : Char) : Bool := decide (0x20 ≤ c.toNat) && decide (c.toNat ≤ 0x7E)

/-- No two adjacent spaces (R61). -/
def noDoubleSpace : Line → Bool
  | [] => true
  | [_] => true
  | a :: b :: rest => !(a == ' ' && b == ' ') && noDoubleSpace (b :: rest)

/-- A well-formed line (R61): printable ASCII, no space first, none last, no two adjacent. -/
def lineOk (l : Line) : Bool :=
  l.all isPrintable && l.head? != some ' ' && l.getLast? != some ' ' && noDoubleSpace l

/-- A character a token of a well-formed line can hold: printable and not the separator (R63). -/
def isTokenChar (c : Char) : Bool := isPrintable c && c != ' '

/-- The pieces between the spaces of a line (R63). -/
def cutAtSpaces : Line → List Token
  | [] => [[]]
  | c :: rest =>
    if c == ' ' then [] :: cutAtSpaces rest
    else match cutAtSpaces rest with
      | [] => [[c]]
      | t :: ts => (c :: t) :: ts

/-- `Tokenise` (R63): the pieces in order; the empty line has no token. -/
def tokenise (l : Line) : List Token :=
  if l.isEmpty then [] else cutAtSpaces l

/-! ### Decimal numerals (R68, R69) -/

/-- The value of one decimal digit. -/
def digitValue (c : Char) : Nat := c.toNat - 48

/-- The value of a string of decimal digits, leading zeros allowed (R68). -/
def digitsValue (ds : List Char) : Nat := ds.foldl (fun acc c => acc * 10 + digitValue c) 0

/-- An unsigned numeral: one or more decimal digits and nothing else. -/
def parseDigits (ds : List Char) : Option Nat :=
  if !ds.isEmpty && ds.all Char.isDigit then some (digitsValue ds) else none

/-- An optional single `-` and one or more digits (R68, R69). -/
def parseSigned (t : Token) : Option Int :=
  match t with
  | [] => none
  | c :: ds =>
    if c == '-' then
      match parseDigits ds with
      | some n => some (-(n : Int))
      | none => none
    else
      match parseDigits (c :: ds) with
      | some n => some (n : Int)
      | none => none

/-- A signed numeral whose value lies in W32 (R68, R69); outside it there is no value (D11, D12). -/
def parseNumber (t : Token) : Option Word :=
  match parseSigned t with
  | none => none
  | some z => if -2147483648 ≤ z ∧ z ≤ 2147483647 then some (BitVec.ofInt 32 z) else none

/-! ### The Operand Resolver (R66 to R70) -/

/-- The six registers. -/
def Reg.all : List Reg := [.eax, .edx, .ecx, .esp, .ebp, .eip]

/-- The register token: sigil `%` and the name in capitals (R67, D4). -/
def Reg.token : Reg → Token
  | .eax => ['%', 'E', 'A', 'X']
  | .edx => ['%', 'E', 'D', 'X']
  | .ecx => ['%', 'E', 'C', 'X']
  | .esp => ['%', 'E', 'S', 'P']
  | .ebp => ['%', 'E', 'B', 'P']
  | .eip => ['%', 'E', 'I', 'P']

/-- A register token, matched exactly and case-sensitively (R67). -/
def parseReg (t : Token) : Option Reg := Reg.all.find? (fun r => r.token == t)

/-- The part of a memory token from its parenthesis on: `(`, a register token, `)`, nothing after (R69). -/
def parseBase (t : Token) : Option Reg := Reg.all.find? (fun r => ('(' :: r.token ++ [')']) == t)

/-- A memory token (R69): an optional offset, 0 when absent, then the parenthesised base register. -/
def parseMem (t : Token) : Option (Reg × Word) :=
  let front := t.takeWhile (· != '(')
  match parseBase (t.dropWhile (· != '(')) with
  | none => none
  | some r =>
    if front.isEmpty then some (r, 0#32)
    else match parseNumber front with
      | some off => some (r, off)
      | none => none

/-- `Resolve` (R66): the first test that fits decides; total on every string. -/
def resolve (t : Token) : Operand :=
  match parseReg t with
  | some r => .reg r
  | none =>
    if t.head? == some '$' then
      match parseNumber t.tail with
      | some v => .imm v
      | none => .invalid
    else
      match parseMem t with
      | some (r, off) => .mem r off
      | none => .invalid

/-! ### The opcode map (R72) and the decoder (R62, R64) -/

/-- The thirteen mnemonics. -/
def Mnemonic.all : List Mnemonic :=
  [.movl, .addl, .subl, .cmpl, .pushl, .popl, .jmp, .je, .jne, .jl, .jg, .call, .ret]

/-- The mnemonic's spelling (R72). -/
def Mnemonic.text : Mnemonic → Token
  | .movl => ['M', 'O', 'V', 'L']
  | .addl => ['A', 'D', 'D', 'L']
  | .subl => ['S', 'U', 'B', 'L']
  | .cmpl => ['C', 'M', 'P', 'L']
  | .pushl => ['P', 'U', 'S', 'H', 'L']
  | .popl => ['P', 'O', 'P', 'L']
  | .jmp => ['J', 'M', 'P']
  | .je => ['J', 'E']
  | .jne => ['J', 'N', 'E']
  | .jl => ['J', 'L']
  | .jg => ['J', 'G']
  | .call => ['C', 'A', 'L', 'L']
  | .ret => ['R', 'E', 'T']

/-- How many operand tokens the mnemonic's format takes (R64). -/
def Mnemonic.arity : Mnemonic → Nat
  | .movl => 2
  | .addl => 2
  | .subl => 2
  | .cmpl => 2
  | .pushl => 1
  | .popl => 1
  | .jmp => 1
  | .je => 1
  | .jne => 1
  | .jl => 1
  | .jg => 1
  | .call => 1
  | .ret => 0

/-- Whether the opcode map holds the mnemonic: `SUBL` only when SUBL_IMPLEMENTED (R72). -/
def Mnemonic.present (cfg : Config) (m : Mnemonic) : Bool := m != .subl || cfg.sublImplemented

/-- The opcode map: the mnemonic an opcode token equals, whole and case-sensitively (R72, D5). -/
def findMnemonic (cfg : Config) (t : Token) : Option Mnemonic :=
  Mnemonic.all.find? (fun m => m.text == t && m.present cfg)

/-- The instruction of a mnemonic and its operand tokens: first token the source, second the destination
(R64, R65, D2). -/
def Mnemonic.build (t1 t2 : Token) : Mnemonic → Instr
  | .movl => .movl (resolve t1) (resolve t2)
  | .addl => .addl (resolve t1) (resolve t2)
  | .subl => .subl (resolve t1) (resolve t2)
  | .cmpl => .cmpl (resolve t1) (resolve t2)
  | .pushl => .pushl (resolve t1)
  | .popl => .popl (resolve t1)
  | .jmp => .jmp t1
  | .je => .je t1
  | .jne => .jne t1
  | .jl => .jl t1
  | .jg => .jg t1
  | .call => .call t1
  | .ret => .ret

/-- Why a line has no instruction. -/
inductive DecodeError
  /-- The line is not well formed (R61): the loader has broken its contract (U6). -/
  | illFormedLine
  /-- A mnemonic with more operand tokens than its format takes (R74, D13). -/
  | surplusTokens
deriving DecidableEq, Repr

/-- An opcode line: a missing token is the empty string (R63, D33), a surplus one is rejected (R74). -/
def decodeOpcodeLine (m : Mnemonic) (operands : List Token) : Except DecodeError Instr :=
  if m.arity < operands.length then .error .surplusTokens
  else .ok (m.build (operands.getD 0 []) (operands.getD 1 []))

/-- A label line: one token that begins with the marker `.` (R64 FLABEL, R71, R76). -/
def isLabelLine (l : Line) : Bool := l.head? == some '.' && !l.contains ' '

/-- A line whose opcode token is no mnemonic: a label line or an unrecognised one (R62, R73). -/
def decodeOtherLine (l : Line) : Instr :=
  if isLabelLine l then .label l else .unrecognised l

/-- The decoder: the kinds of line in the order of R62. -/
def decode (cfg : Config) (l : Line) : Except DecodeError Instr :=
  if !lineOk l then .error .illFormedLine
  else if l == cfg.endMarker then .ok .endMarker
  else match tokenise l with
    | [] => .ok (decodeOtherLine l)
    | t0 :: operands =>
      match findMnemonic cfg t0 with
      | some m => decodeOpcodeLine m operands
      | none => .ok (decodeOtherLine l)

/-! ### The encoder -/

/-- The character of a decimal digit. -/
def digitChar (n : Nat) : Char := Char.ofNat (48 + n)

/-- The decimal digits of a number below 10 ^ `fuel`, without leading zeros. -/
def printDigits : Nat → Nat → List Char
  | 0, _ => []
  | fuel + 1, n =>
    if n < 10 then [digitChar n] else printDigits fuel (n / 10) ++ [digitChar (n % 10)]

/-- The numeral of a W32 (R68): ten digits are enough for its magnitude. -/
def printNumber (v : Word) : List Char :=
  if v.toInt < 0 then '-' :: printDigits 10 v.toInt.natAbs else printDigits 10 v.toInt.natAbs

/-- A token that resolves to the descriptor; `Invalid` carries no payload, and `?` is one of its tokens (R70). -/
def Operand.token : Operand → Token
  | .reg r => r.token
  | .mem r off => printNumber off ++ '(' :: r.token ++ [')']
  | .imm v => '$' :: printNumber v
  | .invalid => ['?']

/-- A line of format F2 (R64). -/
def encodeTwo (m : Mnemonic) (src dst : Operand) : Line :=
  m.text ++ ' ' :: src.token ++ ' ' :: dst.token

/-- A line of format F1S or F1D (R64). -/
def encodeOne (m : Mnemonic) (op : Operand) : Line := m.text ++ ' ' :: op.token

/-- A line of format F1L (R64); the missing token is written by leaving it out (R63). -/
def encodeLabelled (m : Mnemonic) (target : Token) : Line :=
  if target.isEmpty then m.text else m.text ++ ' ' :: target

/-- The line of an instruction. -/
def encode (cfg : Config) : Instr → Line
  | .movl src dst => encodeTwo .movl src dst
  | .addl src dst => encodeTwo .addl src dst
  | .subl src dst => encodeTwo .subl src dst
  | .cmpl src dst => encodeTwo .cmpl src dst
  | .pushl src => encodeOne .pushl src
  | .popl dst => encodeOne .popl dst
  | .jmp t => encodeLabelled .jmp t
  | .je t => encodeLabelled .je t
  | .jne t => encodeLabelled .jne t
  | .jl t => encodeLabelled .jl t
  | .jg t => encodeLabelled .jg t
  | .call t => encodeLabelled .call t
  | .ret => Mnemonic.ret.text
  | .endMarker => cfg.endMarker
  | .label text => text
  | .unrecognised text => text

/-! ### Words of the opcode table (R77) -/

/-- The characters of a number of `n` bytes, the most significant byte first (R77). -/
def charsOfWord : Nat → Nat → List Char
  | 0, _ => []
  | n + 1, w => charsOfWord n (w / 256) ++ [Char.ofNat (w % 256)]

/-- The line a table word stands for: its first character is its most significant byte (R77). A zero byte is no
character of any line (R61), so zero bytes above the first character stand for nothing. -/
def lineOfTableWord (nbits w : Nat) : Line :=
  (charsOfWord ((nbits + 7) / 8) w).dropWhile (· == Char.ofNat 0)

/-- The instruction the decoder reads from a table word, under the default parameters, for which the table gives
the row END (R77). -/
def decodeTableWord (nbits w : Nat) : Option Instr :=
  match decode Config.default (lineOfTableWord nbits w) with
  | .ok i => some i
  | .error _ => none

end Sys2Proof
end

