-- ==== Sys2Proof/WellFormed.lean ====
section
/-! DEFINITION. What a well-formed parameter set, token and instruction is, as checks that can be run. -/
namespace Sys2Proof

/-- The constraints of 00_scope.md R6 on MEM_WORDS, STACK_INIT and END_MARKER. DESIGN CHOICE (log entry 15): the marker
is none of the thirteen spellings of R72, `SUBL` included even where SUBL_IMPLEMENTED is false. -/
def Config.wf (cfg : Config) : Bool :=
  decide (2 ≤ cfg.memWords) && decide (cfg.memWords ≤ 2 ^ 29 - 1)
    && decide (4 ≤ cfg.stackInit.toInt) && decide (cfg.stackInit.toInt ≤ ((cfg.memWords : Int) - 1) * 4)
    && decide (cfg.stackInit.toInt % 4 = 0)
    && cfg.endMarker.all isTokenChar && cfg.endMarker.head? != some '.'
    && !(Mnemonic.all.map Mnemonic.text).contains cfg.endMarker

/-- A label operand that a well-formed line can carry: token characters only (30_encoding.md R63); the empty
token stands for a missing one. It need not begin with `.`: then FindLabel finds nothing (42_control_flow.md R120). -/
def tokenOk (t : Token) : Bool := t.all isTokenChar

/-- A label line's text (30_encoding.md R64, R71): a token that begins with the marker. -/
def labelTextOk (l : Line) : Bool := tokenOk l && l.head? == some '.'

/-- An unrecognised line (30_encoding.md R62, R73): well formed, not the end marker, not a label line, and its
opcode token is no mnemonic. -/
def unrecognisedTextOk (cfg : Config) (l : Line) : Bool :=
  lineOk l && l != cfg.endMarker && !isLabelLine l
    && (match (tokenise l).head? with
        | none => true
        | some t0 => (findMnemonic cfg t0).isNone)

/-- A well-formed instruction: one that some line of a program can hold. Operands are well formed by their type. -/
def Instr.wf (cfg : Config) : Instr → Bool
  | .movl _ _ => true
  | .addl _ _ => true
  | .subl _ _ => cfg.sublImplemented
  | .cmpl _ _ => true
  | .pushl _ => true
  | .popl _ => true
  | .jmp t => tokenOk t
  | .je t => tokenOk t
  | .jne t => tokenOk t
  | .jl t => tokenOk t
  | .jg t => tokenOk t
  | .call t => tokenOk t
  | .ret => true
  | .endMarker => true
  | .label text => labelTextOk text
  | .unrecognised text => unrecognisedTextOk cfg text

end Sys2Proof
end

