-- ==== Sys2Proof/Machine/State.lean ====
section
/-! DEFINITION. The whole machine state as plain data (10_state.md R20), with the loaded program and the
parameters beside it, the reasons a step can stop, and reset. -/
namespace Sys2Proof.Machine

/-- The register file (10_state.md R21): six registers, each a W32. -/
structure Regs where
  eax : Word
  edx : Word
  ecx : Word
  /-- The stack pointer (R22). -/
  esp : Word
  ebp : Word
  /-- The program counter (R23). -/
  eip : Word
deriving DecidableEq, Repr

/-- The comparison flag (10_state.md R25), a tri-state value. -/
inductive Flag
  /-- -1: the destination was less than the source. -/
  | less
  /-- 0. -/
  | equal
  /-- +1: the destination was greater than the source. -/
  | greater
deriving DecidableEq, Repr

/-- The flag's number (R25). -/
def Flag.value : Flag → Int
  | .less => -1
  | .equal => 0
  | .greater => 1

/-- The three error kinds (60_exceptions.md R160); symbolic, without numbers (D24). -/
inductive ErrorCode
  /-- An operand that is Invalid or of a type the opcode forbids (R161). -/
  | instructionError
  /-- An operand or stack address that is not valid (R162). -/
  | memoryError
  /-- A label not found or a return address outside the program (R163). -/
  | pcError
deriving DecidableEq, Repr

/-- The two ways a run halts without error (10_state.md R28). -/
inductive HaltReason
  /-- The end marker was fetched (43_sequencer.md R142). -/
  | endMarker
  /-- EIP lies outside the program (43_sequencer.md R141). -/
  | outOfRange
deriving DecidableEq, Repr

/-- The run status (10_state.md R28, D25). -/
inductive RunStatus
  | running
  | halted (why : HaltReason)
  | faulted (code : ErrorCode)
deriving DecidableEq, Repr

/-- One listed word of data memory: its byte address, a multiple of 4, and its value (20_memory.md R40, R44). -/
abbrev MemCell := Nat × Word

/-- Data memory (10_state.md R26) as the list of its words that are not zero, by rising address; a word that is
not listed is 0, the value reset gives every word (R30). Log entry 5: words, not bytes. -/
abbrev Memory := List MemCell

/-- The canonical form: addresses strictly rising and no listed zero. -/
abbrev Memory.wf (m : Memory) : Prop :=
  m.Pairwise (fun a b => a.1 < b.1) ∧ ∀ c ∈ m, c.2 ≠ 0#32

/-- Everything the spec gives the machine. `imem` and `cfg` are no state that a run changes (10_state.md R20,
R27); they stand here because a step takes one argument (log entry 2). -/
structure State where
  /-- The parameters of 00_scope.md R6. -/
  cfg : Config
  /-- IMEM, the loaded instruction table (10_state.md R27); INSTR_COUNT is its length. -/
  imem : List Line
  /-- The register file x (R21). -/
  regs : Regs
  /-- The comparison flag (R25). -/
  flag : Flag
  /-- Data memory M (R26). -/
  mem : Memory
  /-- The run status (R28). -/
  status : RunStatus
deriving DecidableEq, Repr

/-- Why the machine answers no further state: an earlier step ended the run with an error. `step` alone raises
these, and only in a state whose status is already faulted, which no step leaves (43_sequencer.md R149,
60_exceptions.md R166, R168). Safe: the hardware does not go on there either. -/
inductive Fault
  /-- The run has ended with INSTRUCTION_ERROR. Raised by `step`; safe. -/
  | instructionError
  /-- The run has ended with MEMORY_ERROR. Raised by `step`; safe. -/
  | memoryError
  /-- The run has ended with PC_ERROR. Raised by `step`; safe. -/
  | pcError
deriving DecidableEq, Repr

/-- Situations to which the spec gives no step. -/
inductive Refusal
  /-- An instruction whose arm of `exec` has no meaning yet; no arm answers it now. Safe. -/
  | notModelled (mnemonic : String)
  /-- The run has halted: there is no step from a halted status (43_sequencer.md R140). Raised by `step`; safe. -/
  | halted (why : HaltReason)
  /-- A line of the table is not well formed (30_encoding.md R61, U6) or the table is longer than MEM_WORDS
  (00_scope.md R6, D27). Raised by `step` and by the host operations; safe. -/
  | illFormedProgram
  /-- EIP lies inside the program and is not a multiple of 4 (43_sequencer.md R141, D18, U3). Raised by `step`;
  safe. -/
  | misalignedFetch
  /-- The fetched line is a mnemonic with surplus operand tokens (30_encoding.md R74, D13, U4). Raised by `step`;
  safe. -/
  | surplusTokens
deriving DecidableEq, Repr

/-- INIT, the reset operation (70_reset_and_hazards.md R180) with the values of 10_state.md R30: every state item,
whatever it was; the instruction table and the parameters stay (R181). -/
def State.init (s : State) : State where
  cfg := s.cfg
  imem := s.imem
  regs :=
    { eax := 0#32, edx := 0#32, ecx := 0#32, esp := s.cfg.stackInit, ebp := s.cfg.stackInit, eip := 0#32 }
  flag := .equal
  mem := []
  status := .running

/-- The machine right after reset (10_state.md R30) under the default parameters (log entry 1), with no program
loaded (log entry 3): the values of `State.init`, which overwrites every other field. -/
def State.reset : State :=
  State.init
    { cfg := Config.default
      imem := []
      regs := { eax := 0#32, edx := 0#32, ecx := 0#32, esp := 0#32, ebp := 0#32, eip := 0#32 }
      flag := .equal
      mem := []
      status := .running }

end Sys2Proof.Machine
end

