-- ==== Sys2Proof/Machine/Ops.lean ====
section
/-! DEFINITION. The named operations over registers and memory (00_scope.md R8), the validity predicate, the
label resolver, and the entry of a fault. -/
namespace Sys2Proof.Machine

/-! ### Registers (10_state.md R21) -/

/-- Read one register. -/
def Regs.get (x : Regs) : Reg → Word
  | .eax => x.eax
  | .edx => x.edx
  | .ecx => x.ecx
  | .esp => x.esp
  | .ebp => x.ebp
  | .eip => x.eip

/-- Write one register; the five others keep their values. -/
def Regs.set (x : Regs) (r : Reg) (v : Word) : Regs :=
  match r with
  | .eax => { x with eax := v }
  | .edx => { x with edx := v }
  | .ecx => { x with ecx := v }
  | .esp => { x with esp := v }
  | .ebp => { x with ebp := v }
  | .eip => { x with eip := v }

/-- `x[r]` (00_scope.md R8). -/
def State.reg (s : State) (r : Reg) : Word := s.regs.get r

/-- `x[r] <- v` (00_scope.md R8). -/
def State.setReg (s : State) (r : Reg) (v : Word) : State := { s with regs := s.regs.set r v }

/-- `pc`, the signed value of EIP (00_scope.md R8, 10_state.md R23). -/
def State.pc (s : State) : Int := (s.reg .eip).toInt

/-- INSTR_COUNT (00_scope.md R6). -/
def State.instrCount (s : State) : Nat := s.imem.length

/-! ### Data memory (20_memory.md) -/

/-- The word a memory holds at a byte address: the listed one, else the reset value 0 (20_memory.md R49). -/
def Memory.read : Memory → Nat → Word
  | [], _ => 0#32
  | (b, w) :: rest, a => if b = a then w else Memory.read rest a

/-- A memory without the word at an address: it reads as 0 there. -/
def Memory.without (m : Memory) (a : Nat) : Memory := m.filter (fun c => c.1 != a)

/-- A memory with a further word listed, before the first higher address. -/
def Memory.withWord : Memory → Nat → Word → Memory
  | [], a, v => [(a, v)]
  | (b, w) :: rest, a, v =>
    if b < a then (b, w) :: Memory.withWord rest a v else (a, v) :: (b, w) :: rest

/-- Write one word and keep the canonical form: the list stays rising, and a zero is not listed. -/
def Memory.write (m : Memory) (a : Nat) (v : Word) : Memory :=
  if v = 0#32 then m.without a else (m.without a).withWord a v

/-- `ValidAddr(a)` (20_memory.md R41), on the exact integer (R54). -/
def validAddr (cfg : Config) (a : Int) : Bool :=
  decide (0 ≤ a) && decide (a ≤ ((cfg.memWords : Int) - 1) * 4) && decide (a % 4 = 0)

/-- `MemRead(a, 4)` (20_memory.md R42); used only where `validAddr` has passed. -/
def State.load (s : State) (a : Int) : Word := s.mem.read a.toNat

/-- `MemWrite(a, 4, v)` (20_memory.md R42); used only where `validAddr` has passed. -/
def State.store (s : State) (a : Int) (v : Word) : State := { s with mem := s.mem.write a.toNat v }

/-! ### The Label Resolver (42_control_flow.md R120) -/

/-- `FindLabel(tok)`: `some` is Found with the byte address of the slot after the first slot whose whole text is
the token; `none` is NotFound. -/
def findLabel (imem : List Line) (tok : Token) : Option Int :=
  if tok.head? == some '.' then
    match imem.findIdx? (fun l => l == tok) with
    | some i => some (((i : Int) + 1) * 4)
    | none => none
  else none

/-! ### What an executor reports (00_scope.md R9) and the entry of a fault -/

/-- What an executor does: return SUCCESS with the state it leaves, or raise an error having written nothing
(00_scope.md R8, 10_state.md R32). -/
inductive ExecResult
  | success (s : State)
  | raised (code : ErrorCode)
deriving DecidableEq, Repr

/-- Fault entry (60_exceptions.md R165, 43_sequencer.md R149): the sequencer sets the status and changes nothing
else; EIP still holds the failing line's address. There is no handler and no saved register, and there is no
return from a fault: only INIT, `State.init`, leaves the status (60_exceptions.md R166). -/
def State.enterFault (s : State) (code : ErrorCode) : State := { s with status := .faulted code }

/-- A halt (43_sequencer.md R141, R142): the status alone changes (D19). -/
def State.halt (s : State) (why : HaltReason) : State := { s with status := .halted why }

/-- The fault a faulted run answers from then on (60_exceptions.md R168). -/
def ErrorCode.fault : ErrorCode → Fault
  | .instructionError => .instructionError
  | .memoryError => .memoryError
  | .pcError => .pcError

end Sys2Proof.Machine
end

