-- ==== Sys2Proof/Machine/Operands.lean ====
section
/-! DEFINITION. Operand forms: effective address, validation, reading and writing (20_memory.md R54, 40_alu.md
R90 to R92). -/
namespace Sys2Proof.Machine

/-- `EA(Mem(r, off))` (20_memory.md R54): the exact sum, never wrapped (D10). -/
def effectiveAddr (s : State) (base : Reg) (off : Word) : Int := (s.reg base).toInt + off.toInt

/-- Check 4 of R90 for one operand: a memory operand has a valid address. -/
def operandAddrOk (s : State) : Operand → Bool
  | .reg _ => true
  | .mem base off => validAddr s.cfg (effectiveAddr s base off)
  | .imm _ => true
  | .invalid => true

/-- Whether the descriptor is a memory operand. -/
def isMemOperand : Operand → Bool
  | .reg _ => false
  | .mem _ _ => true
  | .imm _ => false
  | .invalid => false

/-- Whether the descriptor is an immediate. -/
def isImmOperand : Operand → Bool
  | .reg _ => false
  | .mem _ _ => false
  | .imm _ => true
  | .invalid => false

/-- `Validate2` (40_alu.md R90): the four checks in order; `none` when all pass. -/
def validate2 (src dst : Operand) (s : State) : Option ErrorCode :=
  if src = .invalid ∨ dst = .invalid then some .instructionError
  else if isImmOperand dst then some .instructionError
  else if isMemOperand src && isMemOperand dst then some .instructionError
  else if !operandAddrOk s src then some .memoryError
  else if !operandAddrOk s dst then some .memoryError
  else none

/-- `ReadOp` (40_alu.md R91); an Invalid operand never reaches it, validation has raised first. -/
def readOperand (s : State) : Operand → Word
  | .reg r => s.reg r
  | .mem base off => s.load (effectiveAddr s base off)
  | .imm v => v
  | .invalid => 0#32

/-- `WriteOp` (40_alu.md R92); an immediate or Invalid destination never reaches it, validation has raised
first. -/
def writeOperand (s : State) (dst : Operand) (v : Word) : State :=
  match dst with
  | .reg r => s.setReg r v
  | .mem base off => s.store (effectiveAddr s base off) v
  | .imm _ => s
  | .invalid => s

end Sys2Proof.Machine
end

