-- ==== Sys2Proof/Machine/Flags.lean ====
section
/-! DEFINITION. The one flag: how CMPL computes it (40_alu.md R96) and how the jumps read it
(42_control_flow.md R122 to R126). -/
namespace Sys2Proof.Machine

/-- CMPL's flag (40_alu.md R96): the order of the destination's value `a` against the source's value `b`, an exact
signed comparison without a subtraction that could wrap (R97). -/
def compareFlag (a b : Word) : Flag :=
  if a.toInt < b.toInt then .less
  else if a.toInt = b.toInt then .equal
  else .greater

/-- JE's condition (R123): flag = 0. -/
def condEqual (f : Flag) : Bool := decide (f.value = 0)

/-- JNE's condition (R124): flag /= 0. -/
def condNotEqual (f : Flag) : Bool := decide (f.value ≠ 0)

/-- JL's condition (R125): flag = -1. -/
def condLess (f : Flag) : Bool := decide (f.value = -1)

/-- JG's condition (R126): flag = +1. -/
def condGreater (f : Flag) : Bool := decide (f.value = 1)

end Sys2Proof.Machine
end

