-- ==== Sys2Proof/Machine/Sequencer.lean ====
section
/-! DEFINITION. The program-counter sequencer around the executors: the fetch, the check of the loaded program,
and what follows an executor (43_sequencer.md R140 to R147). -/
namespace Sys2Proof.Machine

/-- EIP <- wrap32(EIP + 4) (43_sequencer.md R140). -/
def State.advance (s : State) : State := s.setReg .eip (wrap32 (s.pc + 4))

/-- After a data or stack instruction (R143): on SUCCESS advance the EIP the executor left, else enter the fault. -/
def afterData (s : State) : ExecResult → Host.Outcome State Fault Refusal
  | .success t => .next t.advance
  | .raised code => .next (s.enterFault code)

/-- After a jump (R144): on SUCCESS advance when EIP is unchanged, else trust the executor. -/
def afterJump (s : State) : ExecResult → Host.Outcome State Fault Refusal
  | .success t => if t.reg .eip = s.reg .eip then .next t.advance else .next t
  | .raised code => .next (s.enterFault code)

/-- After CALL and RET (R145): on SUCCESS add nothing (D17). -/
def afterTransfer (s : State) : ExecResult → Host.Outcome State Fault Refusal
  | .success t => .next t
  | .raised code => .next (s.enterFault code)

/-- A program the spec gives a meaning: every line well formed (30_encoding.md R61) and no more lines than
MEM_WORDS (00_scope.md R6). -/
def State.programOk (s : State) : Bool :=
  s.imem.all lineOk && decide (s.instrCount ≤ s.cfg.memWords)

/-- What a fetch finds (43_sequencer.md R141). -/
inductive Fetch
  | outOfRange
  | misaligned
  | line (text : Line)
deriving DecidableEq, Repr

/-- Fetch (R141): the slot EIP/4, when EIP lies inside the program and is a multiple of 4. -/
def State.fetch (s : State) : Fetch :=
  if s.pc < 0 ∨ (s.instrCount : Int) * 4 ≤ s.pc then .outOfRange
  else if s.pc % 4 ≠ 0 then .misaligned
  else .line (s.imem.getD (s.pc / 4).toNat [])

/-- The loader's effect on the machine (70_reset_and_hazards.md R182): the table and its count are filled. -/
def State.loadProgram (s : State) (lines : List Line) : State := { s with imem := lines }

/-- The slot address a fetch can use: EIP itself where it names a slot that a table of MEM_WORDS lines can have,
else slot 0. -/
def State.fetchSlot (s : State) : Nat :=
  if 0 ≤ s.pc ∧ s.pc % 4 = 0 ∧ s.pc < (s.cfg.memWords : Int) * 4 then (s.pc / 4).toNat else 0

/-- The machine with a line in the slot it fetches next: the table is lengthened with blank lines where it is too
short, EIP is moved to slot 0 only where it names no slot, and the machine runs. -/
def State.placeLine (s : State) (l : Line) : State :=
  let k := s.fetchSlot
  { s with
    imem := (s.imem ++ List.replicate (k + 1 - s.imem.length) []).set k l
    regs := s.regs.set .eip (wrap32 ((k : Int) * 4))
    status := .running }

end Sys2Proof.Machine
end

