-- ==== Sys2Proof/Machine/Alu.lean ====
section
/-! DEFINITION. MOVL, ADDL, SUBL, CMPL (40_alu.md): each executor, and the meaning of its line. -/
namespace Sys2Proof.Machine

/-- MOVL's executor (R93): destination ← source. -/
def runMovl (src dst : Operand) (s : State) : ExecResult :=
  match validate2 src dst s with
  | some code => .raised code
  | none => .success (writeOperand s dst (readOperand s src))

/-- ADDL's executor (R94): destination ← wrap32(destination + source). -/
def runAddl (src dst : Operand) (s : State) : ExecResult :=
  match validate2 src dst s with
  | some code => .raised code
  | none =>
    .success (writeOperand s dst (wrap32 ((readOperand s dst).toInt + (readOperand s src).toInt)))

/-- SUBL's executor (R95, D1): destination ← wrap32(destination − source). -/
def runSubl (src dst : Operand) (s : State) : ExecResult :=
  match validate2 src dst s with
  | some code => .raised code
  | none =>
    .success (writeOperand s dst (wrap32 ((readOperand s dst).toInt - (readOperand s src).toInt)))

/-- CMPL's executor (R96): the flag, and nothing else. -/
def runCmpl (src dst : Operand) (s : State) : ExecResult :=
  match validate2 src dst s with
  | some code => .raised code
  | none => .success { s with flag := compareFlag (readOperand s dst) (readOperand s src) }

/-- A `MOVL` line (R93, 43_sequencer.md R143). -/
def execMovl (src dst : Operand) (s : State) : Host.Outcome State Fault Refusal :=
  afterData s (runMovl src dst s)

/-- An `ADDL` line (R94, 43_sequencer.md R143). -/
def execAddl (src dst : Operand) (s : State) : Host.Outcome State Fault Refusal :=
  afterData s (runAddl src dst s)

/-- A `SUBL` line (R95, 43_sequencer.md R143); without SUBL_IMPLEMENTED no line decodes to it (30_encoding.md
R72). -/
def execSubl (src dst : Operand) (s : State) : Host.Outcome State Fault Refusal :=
  afterData s (runSubl src dst s)

/-- A `CMPL` line (R96, 43_sequencer.md R143). -/
def execCmpl (src dst : Operand) (s : State) : Host.Outcome State Fault Refusal :=
  afterData s (runCmpl src dst s)

end Sys2Proof.Machine
end

