-- ==== Sys2Proof/Machine/Stack.lean ====
section
/-! DEFINITION. The stack controller: PUSHL and POPL (41_stack.md), and the push that CALL shares. -/
namespace Sys2Proof.Machine

/-- The new top of stack of a push, `x[ESP] - 4`, exact (R111, 20_memory.md R54). -/
def pushAddr (s : State) : Int := (s.reg .esp).toInt - 4

/-- The guard and bounds check of a push (R111, R113): only the new address, which must be at least 4 (D32). -/
def pushAllowed (s : State) : Bool := validAddr s.cfg (pushAddr s) && decide (4 ≤ pushAddr s)

/-- The push itself: store at the new top, then lower ESP. -/
def pushWord (s : State) (v : Word) : State :=
  (s.store (pushAddr s) v).setReg .esp (wrap32 (pushAddr s))

/-- PUSHL's executor (R111): type check, source address, new stack address; the value is read with the old ESP. -/
def runPushl (src : Operand) (s : State) : ExecResult :=
  if src = .invalid then .raised .instructionError
  else if !operandAddrOk s src then .raised .memoryError
  else if !pushAllowed s then .raised .memoryError
  else .success (pushWord s (readOperand s src))

/-- POPL's checks of ESP and of the post-increment address (R112, D14), on the exact sum. -/
def popAllowed (s : State) : Bool :=
  validAddr s.cfg (s.reg .esp).toInt && validAddr s.cfg ((s.reg .esp).toInt + 4)

/-- The word at the top of the stack. -/
def topOfStack (s : State) : Word := s.load (s.reg .esp).toInt

/-- ESP <- wrap32(ESP + 4), on the ESP of the state given. -/
def raiseEsp (s : State) : State := s.setReg .esp (wrap32 ((s.reg .esp).toInt + 4))

/-- POPL's executor (R112). A register destination is written before ESP is raised, from the ESP then current, so
`POPL %ESP` ends with the popped word plus 4 (D15, 90_conflicts.md C4); a memory destination's address uses the
old ESP. -/
def runPopl (dst : Operand) (s : State) : ExecResult :=
  match dst with
  | .invalid => .raised .instructionError
  | .imm _ => .raised .instructionError
  | .reg r =>
    if !popAllowed s then .raised .memoryError
    else .success (raiseEsp (s.setReg r (topOfStack s)))
  | .mem base off =>
    if !popAllowed s then .raised .memoryError
    else if !operandAddrOk s (.mem base off) then .raised .memoryError
    else .success (raiseEsp (s.store (effectiveAddr s base off) (topOfStack s)))

/-- A `PUSHL` line (R111, 43_sequencer.md R143). -/
def execPushl (src : Operand) (s : State) : Host.Outcome State Fault Refusal :=
  afterData s (runPushl src s)

/-- A `POPL` line (R112, 43_sequencer.md R143). -/
def execPopl (dst : Operand) (s : State) : Host.Outcome State Fault Refusal :=
  afterData s (runPopl dst s)

end Sys2Proof.Machine
end

