-- ==== Sys2Proof/Machine/Control.lean ====
section
/-! DEFINITION. Control transfer: JMP, JE, JNE, JL, JG, CALL, RET (42_control_flow.md). -/
namespace Sys2Proof.Machine

/-- The jump executor common to the family (R121): the label first, then the condition; it writes nothing but
EIP. -/
def runJump (taken : Bool) (target : Token) (s : State) : ExecResult :=
  match findLabel s.imem target with
  | none => .raised .pcError
  | some t => .success (if taken then s.setReg .eip (wrap32 t) else s)

/-- CALL's executor (R128): label, stack check, push of the return address EIP + 4, then EIP <- target. -/
def runCall (target : Token) (s : State) : ExecResult :=
  match findLabel s.imem target with
  | none => .raised .pcError
  | some t =>
    if !pushAllowed s then .raised .memoryError
    else .success ((pushWord s (wrap32 (s.pc + 4))).setReg .eip (wrap32 t))

/-- A popped return address must name a slot of the loaded program (R129). -/
def returnAddrOk (s : State) (r : Int) : Bool :=
  decide (0 ≤ r) && decide (r < (s.instrCount : Int) * 4) && decide (r % 4 = 0)

/-- RET's executor (R129): ESP must be valid (D34), then the word there a return address; no check of the
post-increment address (D16). -/
def runRet (s : State) : ExecResult :=
  if !validAddr s.cfg (s.reg .esp).toInt then .raised .memoryError
  else if !returnAddrOk s (topOfStack s).toInt then .raised .pcError
  else .success (raiseEsp (s.setReg .eip (topOfStack s)))

/-- A `JMP` line (R122, 43_sequencer.md R144). -/
def execJmp (target : Token) (s : State) : Host.Outcome State Fault Refusal :=
  afterJump s (runJump true target s)

/-- A `JE` line (R123, 43_sequencer.md R144). -/
def execJe (target : Token) (s : State) : Host.Outcome State Fault Refusal :=
  afterJump s (runJump (condEqual s.flag) target s)

/-- A `JNE` line (R124, 43_sequencer.md R144). -/
def execJne (target : Token) (s : State) : Host.Outcome State Fault Refusal :=
  afterJump s (runJump (condNotEqual s.flag) target s)

/-- A `JL` line (R125, 43_sequencer.md R144). -/
def execJl (target : Token) (s : State) : Host.Outcome State Fault Refusal :=
  afterJump s (runJump (condLess s.flag) target s)

/-- A `JG` line (R126, 43_sequencer.md R144). -/
def execJg (target : Token) (s : State) : Host.Outcome State Fault Refusal :=
  afterJump s (runJump (condGreater s.flag) target s)

/-- A `CALL` line (R128, 43_sequencer.md R145). -/
def execCall (target : Token) (s : State) : Host.Outcome State Fault Refusal :=
  afterTransfer s (runCall target s)

/-- A `RET` line (R129, 43_sequencer.md R145). -/
def execRet (s : State) : Host.Outcome State Fault Refusal :=
  afterTransfer s (runRet s)

end Sys2Proof.Machine
end

