-- ==== Sys2Proof/Machine/Lines.lean ====
section
/-! DEFINITION. The lines that are not instructions: the end marker, label lines, unrecognised lines
(43_sequencer.md R142, R146, R147). -/
namespace Sys2Proof.Machine

/-- The end marker (R142): the run halts; EIP keeps the marker's own address (D19). -/
def execEndMarker (s : State) : Host.Outcome State Fault Refusal := .next (s.halt .endMarker)

/-- A label line that is executed (R147): skipped; its text is not looked at. -/
def execLabel (_text : Line) (s : State) : Host.Outcome State Fault Refusal := .next s.advance

/-- An unrecognised line (R146): skipped; its tokens are not looked at. -/
def execUnrecognised (_text : Line) (s : State) : Host.Outcome State Fault Refusal := .next s.advance

end Sys2Proof.Machine
end

