-- ==== Sys2Proof/Machine/Dispatch.lean ====
section
/-! DEFINITION. The dispatch of the sequencer (43_sequencer.md R140): one arm per constructor of Instr. -/
namespace Sys2Proof.Machine

/-- The effect of one decoded line: its executor and what the sequencer does after it. -/
def exec (i : Instr) (s : State) : Host.Outcome State Fault Refusal :=
  match i with
  | .movl src dst => Sys2Proof.Machine.execMovl src dst s
  | .addl src dst => Sys2Proof.Machine.execAddl src dst s
  | .subl src dst => Sys2Proof.Machine.execSubl src dst s
  | .cmpl src dst => Sys2Proof.Machine.execCmpl src dst s
  | .pushl src => Sys2Proof.Machine.execPushl src s
  | .popl dst => Sys2Proof.Machine.execPopl dst s
  | .jmp target => Sys2Proof.Machine.execJmp target s
  | .je target => Sys2Proof.Machine.execJe target s
  | .jne target => Sys2Proof.Machine.execJne target s
  | .jl target => Sys2Proof.Machine.execJl target s
  | .jg target => Sys2Proof.Machine.execJg target s
  | .call target => Sys2Proof.Machine.execCall target s
  | .ret => Sys2Proof.Machine.execRet s
  | .endMarker => Sys2Proof.Machine.execEndMarker s
  | .label text => Sys2Proof.Machine.execLabel text s
  | .unrecognised text => Sys2Proof.Machine.execUnrecognised text s

end Sys2Proof.Machine
end

