-- ==== Sys2Proof/Machine/Step.lean ====
section
/-! DEFINITION. One step of the machine (43_sequencer.md R140), and the placing of one instruction where it fetches. -/
namespace Sys2Proof.Machine

/-- The step of a line that has been fetched: decode it and execute it, or refuse it (R140, 30_encoding.md R74). -/
def stepLine (s : State) (l : Line) : Host.Outcome State Fault Refusal :=
  match decode s.cfg l with
  | .ok i => exec i s
  | .error .illFormedLine => .refused .illFormedProgram
  | .error .surplusTokens => .refused .surplusTokens

/-- The step of a running machine: an ill-formed program is refused (30_encoding.md R61, U6); else fetch (R141). -/
def stepRunning (s : State) : Host.Outcome State Fault Refusal :=
  if s.programOk then
    match s.fetch with
    | .outOfRange => .next (s.halt .outOfRange)
    | .misaligned => .refused .misalignedFetch
    | .line l => stepLine s l
  else .refused .illFormedProgram

/-- `Step` (R140): one pass of the Execution Loop. It is defined only while the status is running: a faulted run
answers its fault (60_exceptions.md R168), a halted one is refused. -/
def step (s : State) : Host.Outcome State Fault Refusal :=
  match s.status with
  | .running => stepRunning s
  | .halted why => .refused (.halted why)
  | .faulted code => .fault code.fault

/-- The state with the line of a table word (30_encoding.md R77) in the slot it fetches next. It stands for the
loader (log entry 3): the text is put in the table, which is all a fetch needs. -/
def State.withFetchWord (s : State) (nbits w : Nat) : State := s.placeLine (lineOfTableWord nbits w)

end Sys2Proof.Machine
end

