-- ==== Sys2Proof/Machine/HostOps.lean ====
section
/-! DEFINITION. The operations the CORE offers its host (43_sequencer.md R150, R151): the single-instruction
family and RUN; INIT is `State.init`. -/
namespace Sys2Proof.Machine

/-- The four result codes (00_scope.md R9), symbolic (D24). -/
inductive ResultCode
  | success
  | instructionError
  | memoryError
  | pcError
deriving DecidableEq, Repr

/-- The result code of an error kind. -/
def ErrorCode.result : ErrorCode → ResultCode
  | .instructionError => .instructionError
  | .memoryError => .memoryError
  | .pcError => .pcError

/-- Which jump EXEC_JUMP is asked for (R150). -/
inductive JumpKind
  | jmp | je | jne | jl | jg
deriving DecidableEq, Repr

/-- The condition of a jump (42_control_flow.md R121). -/
def JumpKind.cond : JumpKind → Flag → Bool
  | .jmp, _ => true
  | .je, f => condEqual f
  | .jne, f => condNotEqual f
  | .jl, f => condLess f
  | .jg, f => condGreater f

/-- The single-instruction operations with their operand tokens (R150). -/
inductive ExecCall
  | movl (t1 t2 : Token)
  | addl (t1 t2 : Token)
  | subl (t1 t2 : Token)
  | cmpl (t1 t2 : Token)
  | pushl (t1 : Token)
  | popl (t1 : Token)
  | jump (kind : JumpKind) (t1 : Token)
  | call (t1 : Token)
  | ret
deriving DecidableEq, Repr

/-- The executor of an operation on the current state (R150). -/
def ExecCall.execute (c : ExecCall) (s : State) : ExecResult :=
  match c with
  | .movl t1 t2 => runMovl (resolve t1) (resolve t2) s
  | .addl t1 t2 => runAddl (resolve t1) (resolve t2) s
  | .subl t1 t2 => runSubl (resolve t1) (resolve t2) s
  | .cmpl t1 t2 => runCmpl (resolve t1) (resolve t2) s
  | .pushl t1 => runPushl (resolve t1) s
  | .popl t1 => runPopl (resolve t1) s
  | .jump kind t1 => runJump (kind.cond s.flag) t1 s
  | .call t1 => runCall t1 s
  | .ret => runRet s

/-- What the host gets back: a result code and the Machine State; a failed operation leaves the state as it was
(10_state.md R32). -/
def ExecResult.report (s : State) : ExecResult → ResultCode × State
  | .success t => (.success, t)
  | .raised code => (code.result, s)

/-- An EXEC operation (R150, D30): the executor alone; EIP is not advanced, the status neither read nor written.
A machine whose program is ill formed is refused (30_encoding.md R61). -/
def hostExec (c : ExecCall) (s : State) : Except Refusal (ResultCode × State) :=
  if s.programOk then .ok (ExecResult.report s (c.execute s)) else .error .illFormedProgram

/-- How RUN under a step bound ends (R151, D31). -/
inductive RunOutcome
  /-- The status is terminal: the end of the run (R152). -/
  | ended (s : State)
  /-- The host's bound was reached first: neither halted nor faulted. -/
  | outOfFuel (s : State)
  /-- A step was refused: the spec gives the run no meaning. -/
  | refused (why : Refusal)
deriving DecidableEq, Repr

/-- `RUN` (R150): repeat `step` while the status is running, at most `fuel` times. -/
def runUntilStop : Nat → State → RunOutcome
  | fuel, s =>
    if s.status = .running then
      match fuel with
      | 0 => .outOfFuel s
      | n + 1 =>
        match step s with
        | .next t => runUntilStop n t
        | .fault _ => .ended s
        | .refused why => .refused why
    else .ended s

end Sys2Proof.Machine
end

