-- ==== Sys2Proof/Safety.lean ====
section
/-! DEFINITION. The words claims are stated in: what a sound state is, and the spec's own view of addresses,
operands, labels, numerals and lines, written apart from the functions of the machine. -/
namespace Sys2Proof.Machine

/-! ### Sound states -/

/-- `ValidAddr(a)` as the three conditions of 20_memory.md R41. -/
abbrev ValidAddr (cfg : Config) (a : Int) : Prop :=
  0 ≤ a ∧ a ≤ ((cfg.memWords : Int) - 1) * 4 ∧ a % 4 = 0

/-- The invariant of a machine whose host keeps its contract: the parameters meet 00_scope.md R6, the program
30_encoding.md R61, data memory is in its canonical form, and every listed word stands at a valid address. -/
abbrev State.inv (s : State) : Prop :=
  s.cfg.wf = true ∧ s.programOk = true ∧ s.mem.wf ∧ ∀ c ∈ s.mem, ValidAddr s.cfg (c.1 : Int)

/-! ### Operands -/

/-- A place a value can be kept in: a register or the word at a byte address. -/
inductive Place
  | register (r : Reg)
  | word (addr : Nat)
deriving DecidableEq, Repr

/-- The value a place holds. -/
def Place.value (s : State) : Place → Word
  | .register r => s.reg r
  | .word a => s.mem.read a

/-- The exact integer address of a memory operand (20_memory.md R54). -/
abbrev operandAddr (s : State) (base : Reg) (off : Word) : Int := (s.reg base).toInt + off.toInt

/-- The value of a source operand; none when it is Invalid or its address is not valid (40_alu.md R91). -/
def operandValue (s : State) : Operand → Option Word
  | .reg r => some (s.reg r)
  | .imm v => some v
  | .mem base off =>
    if ValidAddr s.cfg (operandAddr s base off) then some (s.mem.read (operandAddr s base off).toNat) else none
  | .invalid => none

/-- The place of a destination operand; none when it is Invalid, an immediate, or its address is not valid
(40_alu.md R92). -/
def operandPlace (s : State) : Operand → Option Place
  | .reg r => some (.register r)
  | .imm _ => none
  | .mem base off =>
    if ValidAddr s.cfg (operandAddr s base off) then some (.word (operandAddr s base off).toNat) else none
  | .invalid => none

/-- Both operands are memory operands: "no memory-to-memory form" (40_alu.md R90). -/
def BothMemory (src dst : Operand) : Prop :=
  (∃ b o, src = .mem b o) ∧ ∃ b o, dst = .mem b o

/-- A pair of operands whose types the two-operand instructions refuse (40_alu.md R90, checks 1 to 3). -/
def IllTypedPair (src dst : Operand) : Prop :=
  src = .invalid ∨ dst = .invalid ∨ (∃ v, dst = .imm v) ∨ BothMemory src dst

/-- The operand is a memory operand whose address is not valid (40_alu.md R90, check 4). -/
def BadAddress (s : State) (op : Operand) : Prop :=
  ∃ b o, op = .mem b o ∧ ¬ ValidAddr s.cfg (operandAddr s b o)

/-! ### What a step leaves alone -/

/-- The parameters, the program, the flag and the status are the same. -/
def SameControl (s t : State) : Prop :=
  t.cfg = s.cfg ∧ t.imem = s.imem ∧ t.flag = s.flag ∧ t.status = s.status

/-- Every word of data memory reads as before. -/
def SameMemory (s t : State) : Prop := ∀ a : Nat, t.mem.read a = s.mem.read a

/-- Every word of data memory reads as before but the one at `a`, which holds `v`. -/
def StoredOnly (s t : State) (a : Nat) (v : Word) : Prop :=
  ∀ b : Nat, t.mem.read b = if b = a then v else s.mem.read b

/-- The value `v` is in the place `p`, EIP has advanced by 4 from what the instruction left in it, and every other
register, word, flag and status is as before. -/
def WroteOnly (s t : State) (p : Place) (v : Word) : Prop :=
  (∀ r, r ≠ .eip → t.reg r = if p = .register r then v else s.reg r)
    ∧ t.reg .eip = wrap32 ((if p = .register .eip then v else s.reg .eip).toInt + 4)
    ∧ (∀ a : Nat, t.mem.read a = if p = .word a then v else s.mem.read a)
    ∧ SameControl s t

/-- The two faults of a two-operand instruction (40_alu.md R90), in the order of its checks: INSTRUCTION_ERROR for
an ill-typed pair, whatever the addresses; else MEMORY_ERROR for a bad address. The status alone changes. -/
def TwoOperandFaults (instr : Operand → Operand → Instr) : Prop :=
  ∀ (s : State) (src dst : Operand),
    (IllTypedPair src dst → exec (instr src dst) s = .next { s with status := .faulted .instructionError })
    ∧ (¬ IllTypedPair src dst → BadAddress s src ∨ BadAddress s dst →
        exec (instr src dst) s = .next { s with status := .faulted .memoryError })

/-- The state with another EIP and nothing else changed. -/
def State.withEip (s : State) (v : Word) : State := { s with regs := { s.regs with eip := v } }

/-- There is room for a push (41_stack.md R111): the exact new address is valid and at least 4. -/
abbrev PushRoom (s : State) : Prop :=
  ValidAddr s.cfg ((s.reg .esp).toInt - 4) ∧ 4 ≤ (s.reg .esp).toInt - 4

/-- There is a word to pop (41_stack.md R112): ESP and the exact ESP + 4 are valid addresses. -/
abbrev PopRoom (s : State) : Prop :=
  ValidAddr s.cfg (s.reg .esp).toInt ∧ ValidAddr s.cfg ((s.reg .esp).toInt + 4)

/-! ### Labels (42_control_flow.md R120) -/

/-- The token is a label whose first line stands in slot `i`; `t` is the address of the slot after it. -/
def LabelAddr (imem : List Line) (tok : Token) (t : Int) : Prop :=
  tok.head? = some '.' ∧
    ∃ i : Nat, imem[i]? = some tok ∧ (∀ j, j < i → imem[j]? ≠ some tok) ∧ t = ((i : Int) + 1) * 4

/-- The token names no label: it lacks the marker, or no slot holds exactly it. -/
def NoLabel (imem : List Line) (tok : Token) : Prop := tok.head? ≠ some '.' ∨ tok ∉ imem

/-! ### Numerals (30_encoding.md R68, R69) -/

/-- A decimal digit, `0` to `9`. -/
def IsDecimal (c : Char) : Prop := 48 ≤ c.toNat ∧ c.toNat ≤ 57

/-- The value of a string of digits by place value. -/
def placeValue : List Char → Nat
  | [] => 0
  | c :: rest => (c.toNat - 48) * 10 ^ rest.length + placeValue rest

/-- The token is the numeral of `v`: an optional single `-`, then one or more digits (R68, R69). -/
def NumeralOf (t : Token) (v : Word) : Prop :=
  ∃ digits : List Char, digits ≠ [] ∧ (∀ c ∈ digits, IsDecimal c) ∧
    ((t = digits ∧ v.toInt = (placeValue digits : Int)) ∨
     (t = '-' :: digits ∧ v.toInt = -(placeValue digits : Int)))

/-! ### Lines and formats (30_encoding.md R61, R64, R72) -/

/-- A well-formed line as the four conditions of R61: printable ASCII, no space first, none last, no two adjacent. -/
def LineWellFormed (l : Line) : Prop :=
  (∀ c ∈ l, 0x20 ≤ c.toNat ∧ c.toNat ≤ 0x7E) ∧ l.head? ≠ some ' ' ∧ l.getLast? ≠ some ' '
    ∧ ∀ i : Nat, ¬ (l[i]? = some ' ' ∧ l[i + 1]? = some ' ')

/-- The thirteen mnemonics of R72, each with the number of operand tokens of its format in R64: F2 takes two, F1S, F1D
and F1L one, F0 none. -/
def opcodeFormats : List (Token × Nat) :=
  [(['M', 'O', 'V', 'L'], 2), (['A', 'D', 'D', 'L'], 2), (['S', 'U', 'B', 'L'], 2), (['C', 'M', 'P', 'L'], 2),
   (['P', 'U', 'S', 'H', 'L'], 1), (['P', 'O', 'P', 'L'], 1), (['J', 'M', 'P'], 1), (['J', 'E'], 1), (['J', 'N', 'E'], 1),
   (['J', 'L'], 1), (['J', 'G'], 1), (['C', 'A', 'L', 'L'], 1), (['R', 'E', 'T'], 0)]

/-! ### Sequences of instructions and of steps -/

/-- The state after the instructions, one after the other, when each gives a next state. -/
def execAll : List Instr → State → Option State
  | [], s => some s
  | i :: rest, s =>
    match exec i s with
    | .next t => execAll rest t
    | .fault _ => none
    | .refused _ => none

/-- The state after `n` steps, when each gives a next state. -/
def stepTimes : Nat → State → Option State
  | 0, s => some s
  | n + 1, s =>
    match step s with
    | .next t => stepTimes n t
    | .fault _ => none
    | .refused _ => none

end Sys2Proof.Machine
end

