-- ==== Sys2Proof/Certificates/Slice0/Obligations.lean ====
section
/-! DEFINITION. The statements for the provers, each named after what it says; OBLIGATIONS.json lists them. -/
open Sys2Proof Sys2Proof.Machine

/-! ### Decoding and encoding (30_encoding.md) -/

/-- The encoder and the decoder agree on every well-formed instruction, with every operand, every label token and
every immediate and offset of 32 bits, under every parameter set (R64, R67 to R69, R72). Rests on D2 to D6, D11, D12. -/
def Obligations.DecodeGivesBackTheEncodedInstruction : Prop :=
  ∀ (cfg : Config) (i : Instr), cfg.wf = true → i.wf cfg = true → decode cfg (encode cfg i) = .ok i

/-- Whatever the decoder accepts is a well-formed instruction: in particular `SUBL` only where it is implemented
(R72, D1), label tokens without a space (R63, D3), and an unrecognised line that no other kind of line matches (R62). -/
def Obligations.DecodedInstructionIsWellFormed : Prop :=
  ∀ (cfg : Config) (l : Line) (i : Instr), decode cfg l = .ok i → i.wf cfg = true

/-- The decoder rejects exactly two kinds of line: one that breaks a condition of R61 (D26, U6), and a well-formed
one, not the end marker, whose opcode token is a mnemonic (`SUBL` only where it is implemented) and that has more
operand tokens than its format takes: two, one or none (R64, R74, D13). -/
def Obligations.DecodeRejectsOnlyIllFormedAndSurplus : Prop :=
  ∀ (cfg : Config) (l : Line),
    (decode cfg l = .error .illFormedLine ↔ ¬ LineWellFormed l)
    ∧ (decode cfg l = .error .surplusTokens ↔
        LineWellFormed l ∧ l ≠ cfg.endMarker ∧
          ∃ (t0 : Token) (operands : List Token) (count : Nat), tokenise l = t0 :: operands
            ∧ (t0, count) ∈ opcodeFormats ∧ (t0 = ['S', 'U', 'B', 'L'] → cfg.sublImplemented = true)
            ∧ count < operands.length)

/-- Tokens are the pieces between the spaces, in order, and the empty line has none (R63, D3). -/
def Obligations.TokensAreThePiecesBetweenSpaces : Prop :=
  tokenise [] = [] ∧
  ∀ (t : Token) (ts : List Token), (∀ u ∈ t :: ts, ' ' ∉ u) → (t ≠ [] ∨ ts ≠ []) →
    tokenise (List.intercalate [' '] (t :: ts)) = t :: ts

/-- A token resolves to a register exactly when it is one of the six register tokens (R67, D4). -/
def Obligations.ExactlySixRegisterTokens : Prop :=
  ∀ (t : Token) (r : Reg), resolve t = .reg r ↔
    (t = ['%', 'E', 'A', 'X'] ∧ r = .eax) ∨ (t = ['%', 'E', 'D', 'X'] ∧ r = .edx) ∨
    (t = ['%', 'E', 'C', 'X'] ∧ r = .ecx) ∨ (t = ['%', 'E', 'S', 'P'] ∧ r = .esp) ∨
    (t = ['%', 'E', 'B', 'P'] ∧ r = .ebp) ∨ (t = ['%', 'E', 'I', 'P'] ∧ r = .eip)

/-- A token resolves to an immediate exactly when it is `$` and a numeral in range, read by place value; every
other token that begins with `$` is Invalid (R68, D11). -/
def Obligations.ImmediateTokenIsDollarAndNumeral : Prop :=
  (∀ (t : Token) (v : Word), resolve t = .imm v ↔ ∃ n : Token, t = '$' :: n ∧ NumeralOf n v)
  ∧ ∀ n : Token, (∀ v : Word, ¬ NumeralOf n v) → resolve ('$' :: n) = .invalid

/-- A token resolves to a memory operand exactly when it is an optional numeral in range and then the base
register's token in parentheses; an absent offset is 0 (R69, D12). -/
def Obligations.MemoryTokenIsOffsetAndBase : Prop :=
  ∀ (t : Token) (r : Reg) (off : Word), resolve t = .mem r off ↔
    (t = '(' :: (r.token ++ [')']) ∧ off = 0#32) ∨
      ∃ n : Token, NumeralOf n off ∧ t = n ++ '(' :: (r.token ++ [')'])

/-- Every mnemonic's line of its own format decodes to its own instruction, first operand token source and second
destination (R64, R65, R72; D1, D2, D5); an operand token that the line lacks is Invalid, or the empty label token
(R63, R70; D33). -/
def Obligations.OpcodeLineDecodesByItsFormat : Prop :=
  (∀ (cfg : Config) (t1 t2 : Token), cfg.wf = true →
    tokenOk t1 = true → t1 ≠ [] → tokenOk t2 = true → t2 ≠ [] →
      decode cfg (['M', 'O', 'V', 'L', ' '] ++ t1 ++ ' ' :: t2) = .ok (.movl (resolve t1) (resolve t2))
      ∧ decode cfg (['A', 'D', 'D', 'L', ' '] ++ t1 ++ ' ' :: t2) = .ok (.addl (resolve t1) (resolve t2))
      ∧ (cfg.sublImplemented = true →
          decode cfg (['S', 'U', 'B', 'L', ' '] ++ t1 ++ ' ' :: t2) = .ok (.subl (resolve t1) (resolve t2)))
      ∧ decode cfg (['C', 'M', 'P', 'L', ' '] ++ t1 ++ ' ' :: t2) = .ok (.cmpl (resolve t1) (resolve t2))
      ∧ decode cfg (['P', 'U', 'S', 'H', 'L', ' '] ++ t1) = .ok (.pushl (resolve t1))
      ∧ decode cfg (['P', 'O', 'P', 'L', ' '] ++ t1) = .ok (.popl (resolve t1))
      ∧ decode cfg (['J', 'M', 'P', ' '] ++ t1) = .ok (.jmp t1)
      ∧ decode cfg (['J', 'E', ' '] ++ t1) = .ok (.je t1)
      ∧ decode cfg (['J', 'N', 'E', ' '] ++ t1) = .ok (.jne t1)
      ∧ decode cfg (['J', 'L', ' '] ++ t1) = .ok (.jl t1)
      ∧ decode cfg (['J', 'G', ' '] ++ t1) = .ok (.jg t1)
      ∧ decode cfg (['C', 'A', 'L', 'L', ' '] ++ t1) = .ok (.call t1)
      ∧ decode cfg ['R', 'E', 'T'] = .ok .ret)
  ∧ (∀ (cfg : Config) (t1 : Token), cfg.wf = true → tokenOk t1 = true → t1 ≠ [] →
      decode cfg (['M', 'O', 'V', 'L', ' '] ++ t1) = .ok (.movl (resolve t1) .invalid)
      ∧ decode cfg (['A', 'D', 'D', 'L', ' '] ++ t1) = .ok (.addl (resolve t1) .invalid)
      ∧ (cfg.sublImplemented = true →
          decode cfg (['S', 'U', 'B', 'L', ' '] ++ t1) = .ok (.subl (resolve t1) .invalid))
      ∧ decode cfg (['C', 'M', 'P', 'L', ' '] ++ t1) = .ok (.cmpl (resolve t1) .invalid))
  ∧ ∀ cfg : Config, cfg.wf = true →
      decode cfg ['M', 'O', 'V', 'L'] = .ok (.movl .invalid .invalid)
      ∧ decode cfg ['A', 'D', 'D', 'L'] = .ok (.addl .invalid .invalid)
      ∧ (cfg.sublImplemented = true →
          decode cfg ['S', 'U', 'B', 'L'] = .ok (.subl .invalid .invalid))
      ∧ decode cfg ['C', 'M', 'P', 'L'] = .ok (.cmpl .invalid .invalid)
      ∧ decode cfg ['P', 'U', 'S', 'H', 'L'] = .ok (.pushl .invalid)
      ∧ decode cfg ['P', 'O', 'P', 'L'] = .ok (.popl .invalid)
      ∧ decode cfg ['J', 'M', 'P'] = .ok (.jmp [])
      ∧ decode cfg ['J', 'E'] = .ok (.je [])
      ∧ decode cfg ['J', 'N', 'E'] = .ok (.jne [])
      ∧ decode cfg ['J', 'L'] = .ok (.jl [])
      ∧ decode cfg ['J', 'G'] = .ok (.jg [])
      ∧ decode cfg ['C', 'A', 'L', 'L'] = .ok (.call [])

/-- Lines and table words written out from the spec's encodings decode to what they stand for: lines of the
programs P1 and P2 (95_test_vectors.md), the words of the opcode table for END, LABEL and RET (R77). -/
def Obligations.WrittenOutLinesDecode : Prop :=
  decode Config.default ['M', 'O', 'V', 'L', ' ', '%', 'E', 'A', 'X', ' ', '-', '4', '(', '%', 'E', 'B', 'P', ')']
      = .ok (.movl (.reg .eax) (.mem .ebp (-4#32)))
  ∧ decode Config.default ['S', 'U', 'B', 'L', ' ', '$', '1', ' ', '%', 'E', 'C', 'X']
      = .ok (.subl (.imm 1#32) (.reg .ecx))
  ∧ decode Config.default ['P', 'U', 'S', 'H', 'L', ' ', '%', 'E', 'A', 'X'] = .ok (.pushl (.reg .eax))
  ∧ decode Config.default ['J', 'G', ' ', '.', 'l', 'o', 'o', 'p'] = .ok (.jg ['.', 'l', 'o', 'o', 'p'])
  ∧ decode Config.default ['C', 'A', 'L', 'L', ' ', '.', 'd', 'o', 'u', 'b', 'l', 'e']
      = .ok (.call ['.', 'd', 'o', 'u', 'b', 'l', 'e'])
  ∧ decodeTableWord 24 0x454E44 = some .endMarker
  ∧ decodeTableWord 8 0x2E = some (.label ['.'])
  ∧ decodeTableWord 24 0x524554 = some .ret

/-! ### The sequencer (43_sequencer.md) -/

/-- A step runs the decoded instruction: when EIP names a slot of a well-formed program and the slot's line
decodes to `i`, the step is the effect of `i` on the state, with nothing added (R140). -/
def Obligations.StepRunsTheDecodedInstruction : Prop :=
  ∀ (s : State) (l : Line) (i : Instr), s.status = .running → s.programOk = true →
    0 ≤ s.pc → s.pc % 4 = 0 → s.imem[(s.pc / 4).toNat]? = some l → decode s.cfg l = .ok i →
      step s = exec i s

/-- An EIP outside the program halts the run and changes nothing but the status (R141, D19). -/
def Obligations.FetchOutsideTheProgramHalts : Prop :=
  ∀ s : State, s.status = .running → s.programOk = true →
    (s.pc < 0 ∨ (s.imem.length : Int) * 4 ≤ s.pc) →
      step s = .next { s with status := .halted .outOfRange }

/-- The situations to which the spec gives no meaning are refused, each by its own name: an ill-formed program
(30_encoding.md R61, U6; R6, D27), an in-range misaligned EIP (R141, D18), surplus operand tokens (R74, D13). -/
def Obligations.SituationsWithoutMeaningAreRefused : Prop :=
  ∀ s : State, s.status = .running →
    ((∃ l ∈ s.imem, lineOk l = false) ∨ s.cfg.memWords < s.imem.length → step s = .refused .illFormedProgram)
    ∧ (s.programOk = true → 0 ≤ s.pc → s.pc < (s.imem.length : Int) * 4 → s.pc % 4 ≠ 0 →
        step s = .refused .misalignedFetch)
    ∧ (∀ l, s.programOk = true → 0 ≤ s.pc → s.pc % 4 = 0 → s.imem[(s.pc / 4).toNat]? = some l →
        decode s.cfg l = .error .surplusTokens → step s = .refused .surplusTokens)

/-- No step leaves a status other than running; a faulted run answers its fault (R140, R149; 60_exceptions.md
R166, R168). That the status is a state item is the spec's decision D25; how the answer is given is log entry 4. -/
def Obligations.NoStepLeavesATerminalStatus : Prop :=
  ∀ s : State, s.status ≠ .running →
    (∀ t, step s ≠ .next t) ∧ ∀ c : ErrorCode, s.status = .faulted c → step s = .fault c.fault

/-- Every fetched line that is not the end marker and whose opcode token is no mnemonic of the opcode map does one
thing: EIP advances by 4 (R146). -/
def Obligations.UnrecognisedLineOnlyAdvances : Prop :=
  ∀ (s : State) (l : Line), s.status = .running → s.programOk = true →
    0 ≤ s.pc → s.pc % 4 = 0 → s.imem[(s.pc / 4).toNat]? = some l → l ≠ s.cfg.endMarker →
    (∀ (m : Mnemonic) (operands : List Token), tokenise l = m.text :: operands →
      m = .subl ∧ s.cfg.sublImplemented = false) →
      step s = .next (s.withEip (wrap32 (s.pc + 4)))

/-- A fetched end marker halts the run; EIP keeps its address and nothing but the status changes (R142, D6, D19). -/
def Obligations.EndMarkerLineHalts : Prop :=
  (∀ s : State, exec .endMarker s = .next { s with status := .halted .endMarker })
  ∧ ∀ s : State, s.status = .running → s.programOk = true →
      0 ≤ s.pc → s.pc % 4 = 0 → s.imem[(s.pc / 4).toNat]? = some s.cfg.endMarker →
        step s = .next { s with status := .halted .endMarker }

/-- A label line and an unrecognised line advance EIP by 4 and change nothing else, whatever their text
(R146, R147). -/
def Obligations.LabelAndUnrecognisedLinesAreSkipped : Prop :=
  ∀ (s : State) (l : Line),
    exec (.label l) s = .next (s.withEip (wrap32 (s.pc + 4)))
    ∧ exec (.unrecognised l) s = .next (s.withEip (wrap32 (s.pc + 4)))

/-- After a data or stack instruction (R143): when its executor, run by the host's single-instruction operation,
succeeds, the line leaves the executor's state with EIP, as the executor left it, advanced by 4; when it reports
another code, the line changes the status alone. -/
def Obligations.DataInstructionAdvancesOnSuccess : Prop :=
  ∀ (s t : State) (code : ResultCode) (t1 t2 : Token) (c : ExecCall) (i : Instr),
    (c, i) ∈ [(ExecCall.movl t1 t2, Instr.movl (resolve t1) (resolve t2)),
              (ExecCall.addl t1 t2, Instr.addl (resolve t1) (resolve t2)),
              (ExecCall.subl t1 t2, Instr.subl (resolve t1) (resolve t2)),
              (ExecCall.cmpl t1 t2, Instr.cmpl (resolve t1) (resolve t2)),
              (ExecCall.pushl t1, Instr.pushl (resolve t1)),
              (ExecCall.popl t1, Instr.popl (resolve t1))] →
    hostExec c s = .ok (code, t) →
      (code = .success → exec i s = .next (t.withEip (wrap32 (t.pc + 4))))
      ∧ ∀ e : ErrorCode, code = e.result → exec i s = .next { s with status := .faulted e }

/-! ### The whole machine -/

/-- Every step keeps the invariant: legal parameters, a well-formed program, data memory in canonical form with
every listed word at a valid address, from every state that has it. The form of memory is the model's (log entry 5). -/
def Obligations.EveryStepKeepsTheInvariant : Prop :=
  ∀ s t : State, s.inv → step s = .next t → t.inv

/-- INIT gives a state that meets the invariant, and so does reset (10_state.md R30). -/
def Obligations.InvariantHoldsAfterReset : Prop :=
  (∀ s : State, s.cfg.wf = true → s.programOk = true → s.init.inv) ∧ State.reset.inv

/-- No step changes the instruction table or a parameter, and what a fetch finds does not depend on data memory:
a store is never seen by a fetch (20_memory.md R52). -/
def Obligations.StoreIsNeverSeenByAFetch : Prop :=
  (∀ s t : State, step s = .next t → t.imem = s.imem ∧ t.cfg = s.cfg)
  ∧ ∀ (s : State) (m : Memory), ({ s with mem := m } : State).fetch = s.fetch

/-- Every instruction gives a next state from every state, and it does one of three things: enter a fault, having
changed nothing else; halt, if it is the end marker; or leave the status as it was (43_sequencer.md R153, R149). -/
def Obligations.EveryInstructionFaultsHaltsOrKeepsTheStatus : Prop :=
  ∀ (i : Instr) (s : State), ∃ t, exec i s = .next t ∧
    ((∃ c : ErrorCode, t = { s with status := .faulted c })
      ∨ (i = .endMarker ∧ t = { s with status := .halted .endMarker })
      ∨ (i ≠ .endMarker ∧ t.status = s.status))

/-- All-or-nothing (10_state.md R32): an executor that reports an error has written nothing, and the sequencer then
changes only the status. -/
def Obligations.FailedOperationChangesNothing : Prop :=
  (∀ (c : ExecCall) (s t : State) (code : ResultCode), hostExec c s = .ok (code, t) → code ≠ .success → t = s)
  ∧ ∀ (s t : State) (e : ErrorCode), step s = .next t → t.status = .faulted e →
      t = { s with status := .faulted e }

/-- Only CMPL changes the comparison flag (10_state.md R25). -/
def Obligations.OnlyCmplChangesTheFlag : Prop :=
  ∀ (i : Instr) (s t : State), exec i s = .next t → t.flag ≠ s.flag → ∃ src dst, i = .cmpl src dst

/-- Only JE, JNE, JL and JG read the comparison flag: every other instruction, run with another flag, leaves the
same state but for the flag, and the flag it leaves is the same or is the one it was run with (10_state.md R25). -/
def Obligations.OnlyConditionalJumpsReadTheFlag : Prop :=
  ∀ (i : Instr) (s : State) (f : Flag), (∀ tok, i ≠ .je tok ∧ i ≠ .jne tok ∧ i ≠ .jl tok ∧ i ≠ .jg tok) →
    ∃ t t' : State, exec i s = .next t ∧ exec i { s with flag := f } = .next t' ∧ t' = { t with flag := t'.flag }
      ∧ (t'.flag = t.flag ∨ (t.flag = s.flag ∧ t'.flag = f))

/-- No instruction reads the run status: run with another status, it leaves the same state but for the status, and the
status it leaves is the same or is the one it was run with (10_state.md R28). -/
def Obligations.NoInstructionReadsTheStatus : Prop :=
  ∀ (i : Instr) (s : State) (st : RunStatus),
    ∃ t t' : State, exec i s = .next t ∧ exec i { s with status := st } = .next t' ∧
      t' = { t with status := t'.status } ∧ (t'.status = t.status ∨ (t.status = s.status ∧ t'.status = st))

/-- EAX, EDX, ECX and EBP change only under an instruction that names them as its register destination; ESP besides
under PUSHL, POPL, CALL and RET (10_state.md R22). -/
def Obligations.RegisterChangesOnlyByNameOrByTheStack : Prop :=
  ∀ (i : Instr) (s t : State) (r : Reg), exec i s = .next t → r ≠ .eip → t.reg r ≠ s.reg r →
    (∃ src, i = .movl src (.reg r) ∨ i = .addl src (.reg r) ∨ i = .subl src (.reg r)) ∨ i = .popl (.reg r)
      ∨ (r = .esp ∧ ((∃ op, i = .pushl op ∨ i = .popl op) ∨ (∃ tok, i = .call tok) ∨ i = .ret))

/-- The ways a step ends a run (43_sequencer.md R152; D19): at the end marker EIP is the marker line's address, at a
drift EIP is the out-of-range value, and each time the status alone has changed. -/
def Obligations.TerminalStatusTellsHowTheRunEnded : Prop :=
  ∀ s t : State, step s = .next t →
    (t.status = .halted .endMarker →
      t = { s with status := .halted .endMarker } ∧
        ∃ k : Nat, t.pc = (k : Int) * 4 ∧ t.imem[k]? = some t.cfg.endMarker)
    ∧ (t.status = .halted .outOfRange →
        t = { s with status := .halted .outOfRange } ∧ (t.pc < 0 ∨ (t.imem.length : Int) * 4 ≤ t.pc))

/-- INIT sets every state item whatever it was, a terminal status included, and keeps the instruction table and the
parameters (70_reset_and_hazards.md R180, R181; 10_state.md R30). ESP and EBP rest on D8, the flag on D20, the table
on D21. -/
def Obligations.InitSetsEveryStateItem : Prop :=
  ∀ s : State, s.init.reg .eax = 0#32 ∧ s.init.reg .edx = 0#32 ∧ s.init.reg .ecx = 0#32
    ∧ s.init.reg .esp = s.cfg.stackInit ∧ s.init.reg .ebp = s.cfg.stackInit ∧ s.init.reg .eip = 0#32
    ∧ s.init.flag.value = 0 ∧ (∀ a : Nat, s.init.mem.read a = 0#32) ∧ s.init.status = .running
    ∧ s.init.imem = s.imem ∧ s.init.cfg = s.cfg

/-! ### Data memory (20_memory.md) -/

/-- `MemRead` and `MemWrite` on valid addresses (R42): a read after a write gives the value written, a write changes
no other word, no register, not the flag and not the status. -/
def Obligations.WriteIsReadBackAndChangesNoOtherWord : Prop :=
  ∀ (s : State) (a b : Int) (v : Word), ValidAddr s.cfg a → ValidAddr s.cfg b →
    (s.store a v).load b = (if b = a then v else s.load b)
    ∧ (∀ r, (s.store a v).reg r = s.reg r) ∧ SameControl s (s.store a v)

/-- Equal memories are equal data: two memories in canonical form that read alike everywhere are the same list
(log entry 5). -/
def Obligations.CanonicalMemoriesThatReadAlikeAreEqual : Prop :=
  ∀ m m' : Memory, m.wf → m'.wf → (∀ a : Nat, m.read a = m'.read a) → m = m'

/-! ### MOVL, ADDL, SUBL, CMPL (40_alu.md) -/

/-- MOVL (R93): for every legal pair of operands the destination holds the source's value, EIP advances and nothing
else changes; an illegal pair or a bad address faults. -/
def Obligations.MovlCopiesTheSource : Prop :=
  (∀ (s : State) (src dst : Operand) (v : Word) (p : Place),
    operandValue s src = some v → operandPlace s dst = some p → ¬ BothMemory src dst →
      ∃ t, exec (.movl src dst) s = .next t ∧ WroteOnly s t p v)
  ∧ TwoOperandFaults .movl

/-- ADDL (R94): the destination holds wrap32 of its old value plus the source's; the flag is unchanged. What an
overflowing sum gives is the spec's decision D9 (R97). -/
def Obligations.AddlAddsIntoTheDestination : Prop :=
  (∀ (s : State) (src dst : Operand) (v : Word) (p : Place),
    operandValue s src = some v → operandPlace s dst = some p → ¬ BothMemory src dst →
      ∃ t, exec (.addl src dst) s = .next t ∧ WroteOnly s t p (wrap32 ((p.value s).toInt + v.toInt)))
  ∧ TwoOperandFaults .addl

/-- SUBL (R95, the spec's decision D1): the destination holds wrap32 of its old value minus the source's; the flag is
unchanged. -/
def Obligations.SublSubtractsFromTheDestination : Prop :=
  (∀ (s : State) (src dst : Operand) (v : Word) (p : Place),
    operandValue s src = some v → operandPlace s dst = some p → ¬ BothMemory src dst →
      ∃ t, exec (.subl src dst) s = .next t ∧ WroteOnly s t p (wrap32 ((p.value s).toInt - v.toInt)))
  ∧ TwoOperandFaults .subl

/-- CMPL (R96): the flag is -1, 0 or +1 as the destination's signed value is less than, equal to or greater than the
source's; no register but EIP and no word changes; an illegal pair or a bad address faults. -/
def Obligations.CmplSetsTheFlagOnly : Prop :=
  (∀ (s : State) (src dst : Operand) (v : Word) (p : Place),
    operandValue s src = some v → operandPlace s dst = some p → ¬ BothMemory src dst →
      ∃ t, exec (.cmpl src dst) s = .next t
        ∧ ((p.value s).toInt < v.toInt → t.flag.value = -1)
        ∧ ((p.value s).toInt = v.toInt → t.flag.value = 0)
        ∧ (v.toInt < (p.value s).toInt → t.flag.value = 1)
        ∧ t = { s.withEip (wrap32 (s.pc + 4)) with flag := t.flag })
  ∧ TwoOperandFaults .cmpl

/-- Compare(a, b) and Compare(b, a) on the same state give opposite flags, and the equal flag exactly on equal values
(R96, R99). -/
def Obligations.SwappedCompareGivesTheOppositeFlag : Prop :=
  ∀ (s : State) (a b : Operand) (pa pb : Place),
    operandPlace s a = some pa → operandPlace s b = some pb → ¬ BothMemory a b →
      ∃ t u, exec (.cmpl a b) s = .next t ∧ exec (.cmpl b a) s = .next u
        ∧ u.flag.value = -t.flag.value ∧ (t.flag.value = 0 ↔ pa.value s = pb.value s)

/-! ### PUSHL, POPL (41_stack.md) -/

/-- PUSHL (R111): with room for a push the source's value, read with the old ESP, stands at ESP - 4, ESP is that exact
address, EIP advances and nothing else changes (D32: the new address alone is checked). -/
def Obligations.PushlStoresBelowTheTop : Prop :=
  ∀ (s : State) (src : Operand) (v : Word), operandValue s src = some v → PushRoom s →
    ∃ t, exec (.pushl src) s = .next t
      ∧ StoredOnly s t ((s.reg .esp).toInt - 4).toNat v
      ∧ (t.reg .esp).toInt = (s.reg .esp).toInt - 4
      ∧ t.reg .eip = wrap32 (s.pc + 4)
      ∧ (∀ r, r ≠ .esp → r ≠ .eip → t.reg r = s.reg r)
      ∧ SameControl s t

/-- PUSHL's faults (R111, R113): an Invalid source is an INSTRUCTION_ERROR, even without room (D28); else a bad source
address or no room is a MEMORY_ERROR. -/
def Obligations.PushlFaults : Prop :=
  ∀ (s : State) (src : Operand),
    exec (.pushl .invalid) s = .next { s with status := .faulted .instructionError }
    ∧ (src ≠ .invalid → BadAddress s src ∨ ¬ PushRoom s →
        exec (.pushl src) s = .next { s with status := .faulted .memoryError })

/-- POPL to a register (R112): the register holds the top word, ESP, read after that write, rises by 4, EIP, read after
it, advances, and nothing else changes. `POPL %ESP` and `POPL %EIP` are included; the first rests on D15, the checks on
D14. -/
def Obligations.PoplToRegister : Prop :=
  ∀ (s : State) (r : Reg) (v : Word), PopRoom s → v = s.mem.read (s.reg .esp).toInt.toNat →
    ∃ t, exec (.popl (.reg r)) s = .next t
      ∧ t.reg .esp = wrap32 ((if r = .esp then v else s.reg .esp).toInt + 4)
      ∧ t.reg .eip = wrap32 ((if r = .eip then v else s.reg .eip).toInt + 4)
      ∧ (∀ q, q ≠ .esp → q ≠ .eip → t.reg q = if q = r then v else s.reg q)
      ∧ SameMemory s t ∧ SameControl s t

/-- POPL to memory (R112): the word at the destination's address, computed with the old ESP, is the top word, ESP rises
by 4, EIP advances, and nothing else changes (D14). -/
def Obligations.PoplToMemory : Prop :=
  ∀ (s : State) (base : Reg) (off : Word), PopRoom s → ValidAddr s.cfg (operandAddr s base off) →
    ∃ t, exec (.popl (.mem base off)) s = .next t
      ∧ StoredOnly s t (operandAddr s base off).toNat (s.mem.read (s.reg .esp).toInt.toNat)
      ∧ t.reg .esp = wrap32 ((s.reg .esp).toInt + 4)
      ∧ t.reg .eip = wrap32 (s.pc + 4)
      ∧ (∀ r, r ≠ .esp → r ≠ .eip → t.reg r = s.reg r)
      ∧ SameControl s t

/-- POPL's faults (R112): an Invalid or immediate destination is an INSTRUCTION_ERROR, whatever ESP (D28); else nothing
to pop (D14) or a bad destination address is a MEMORY_ERROR. -/
def Obligations.PoplFaults : Prop :=
  ∀ (s : State) (dst : Operand),
    (dst = .invalid ∨ (∃ v, dst = .imm v) →
      exec (.popl dst) s = .next { s with status := .faulted .instructionError })
    ∧ (dst ≠ .invalid → (∀ v, dst ≠ .imm v) → ¬ PopRoom s ∨ BadAddress s dst →
        exec (.popl dst) s = .next { s with status := .faulted .memoryError })

/-- A push of V and then a pop recover V and restore the stack pointer (R110): for every register the pop can name,
with the 4 that ESP and EIP receive after the write when they are the register named (D14, D15). -/
def Obligations.PopRecoversThePushedValue : Prop :=
  ∀ (s : State) (src : Operand) (v : Word) (r : Reg), operandValue s src = some v → PushRoom s →
    ValidAddr s.cfg (s.reg .esp).toInt →
      ∃ t, execAll [.pushl src, .popl (.reg r)] s = some t
        ∧ t.reg r = (if r = .esp ∨ r = .eip then wrap32 (v.toInt + 4) else v)
        ∧ (r ≠ .esp → t.reg .esp = s.reg .esp)

/-- Three pushes of registers and three pops in the opposite order restore every register but EIP, the stack pointer
among them, and leave the three words below it (R114; D14). -/
def Obligations.ThreePushesAndPopsRestoreTheRegisters : Prop :=
  ∀ (s : State) (a b c : Reg), (∀ r ∈ [a, b, c], r ≠ .esp ∧ r ≠ .eip) →
    ValidAddr s.cfg (s.reg .esp).toInt → 16 ≤ (s.reg .esp).toInt →
      ∃ t, execAll [.pushl (.reg a), .pushl (.reg b), .pushl (.reg c),
                    .popl (.reg c), .popl (.reg b), .popl (.reg a)] s = some t
        ∧ (∀ r, r ≠ .eip → t.reg r = s.reg r)
        ∧ t.mem.read ((s.reg .esp).toInt - 4).toNat = s.reg a
        ∧ t.mem.read ((s.reg .esp).toInt - 8).toNat = s.reg b
        ∧ t.mem.read ((s.reg .esp).toInt - 12).toNat = s.reg c
        ∧ SameControl s t

/-- PUSHL and CALL never write the guard word at address 0, whatever the operand and the state (R113). -/
def Obligations.GuardWordIsNeverPushedInto : Prop :=
  ∀ (s t : State), (∃ op, exec (.pushl op) s = .next t) ∨ (∃ tok, exec (.call tok) s = .next t) →
    t.mem.read 0 = s.mem.read 0

/-! ### Control transfer (42_control_flow.md) -/

/-- A label that is found is found in the first slot that holds exactly its token, which begins with `.`; its address is
that of the slot after it, lies between 4 and INSTR_COUNT*4, is a multiple of 4 and fits EIP; lines after the first match
do not matter (R120). That it fits EIP rests on D27. -/
def Obligations.LabelAddressIsASlotAddressAndTheFirst : Prop :=
  ∀ (s : State) (tok : Token) (t : Int), findLabel s.imem tok = some t →
    LabelAddr s.imem tok t
    ∧ 4 ≤ t ∧ t ≤ (s.imem.length : Int) * 4 ∧ t % 4 = 0
    ∧ (s.inv → (wrap32 t).toInt = t)
    ∧ ∀ later : List Line, findLabel (s.imem ++ later) tok = some t

/-- The jump family: a label that is not found is a PC_ERROR whether or not the condition holds; else EIP is the label's
address when the condition holds, and the next slot's when it does not, or when the label's address is the jump's own;
nothing else changes (R121 to R126; 43_sequencer.md R144). -/
def Obligations.JumpGoesToItsLabelWhenItsConditionHolds : Prop :=
  ∀ (s : State) (tok : Token) (i : Instr) (holds : Prop),
    (i, holds) ∈ [(Instr.jmp tok, True), (Instr.je tok, s.flag.value = 0), (Instr.jne tok, s.flag.value ≠ 0),
                  (Instr.jl tok, s.flag.value = -1), (Instr.jg tok, s.flag.value = 1)] →
    (NoLabel s.imem tok → exec i s = .next { s with status := .faulted .pcError })
    ∧ ∀ t : Int, LabelAddr s.imem tok t →
        (holds → wrap32 t ≠ s.reg .eip → exec i s = .next (s.withEip (wrap32 t)))
        ∧ (holds → wrap32 t = s.reg .eip → exec i s = .next (s.withEip (wrap32 (s.pc + 4))))
        ∧ (¬ holds → exec i s = .next (s.withEip (wrap32 (s.pc + 4))))

/-- A jump whose label is its own address is advanced past, taken or not; a CALL to its own address and a RET to its own
address execute again: they complete without a fault, with ESP moved, and EIP names their own slot of the same program
(70_reset_and_hazards.md R183; 43_sequencer.md R145). That CALL and RET do so is the spec's decision D17. -/
def Obligations.JumpToItselfFallsThroughCallAndRetDoNot : Prop :=
  ∀ s : State,
    (∀ (tok : Token) (i : Instr), LabelAddr s.imem tok s.pc →
      i ∈ [Instr.jmp tok, .je tok, .jne tok, .jl tok, .jg tok] →
        exec i s = .next (s.withEip (wrap32 (s.pc + 4))))
    ∧ (∀ tok : Token, LabelAddr s.imem tok s.pc → PushRoom s →
        ∃ t, exec (.call tok) s = .next t ∧ t.pc = s.pc
          ∧ (t.reg .esp).toInt = (s.reg .esp).toInt - 4 ∧ SameControl s t)
    ∧ (ValidAddr s.cfg (s.reg .esp).toInt → s.mem.read (s.reg .esp).toInt.toNat = s.reg .eip →
        0 ≤ s.pc → s.pc < (s.imem.length : Int) * 4 → s.pc % 4 = 0 →
          ∃ t, exec .ret s = .next t ∧ t.pc = s.pc
            ∧ t.reg .esp = wrap32 ((s.reg .esp).toInt + 4) ∧ SameMemory s t ∧ SameControl s t)

/-- CALL (R128): with its label found and room for a push, the return address EIP + 4 stands at ESP - 4, ESP is that
exact address, EIP is the label's address, and nothing else changes; a label that is not found is a PC_ERROR, even
without room, and no room is then a MEMORY_ERROR. No advance follows (D17; D32). -/
def Obligations.CallPushesTheReturnAddress : Prop :=
  ∀ (s : State) (tok : Token),
    (NoLabel s.imem tok → exec (.call tok) s = .next { s with status := .faulted .pcError })
    ∧ ∀ t : Int, LabelAddr s.imem tok t →
        (¬ PushRoom s → exec (.call tok) s = .next { s with status := .faulted .memoryError })
        ∧ (PushRoom s →
            ∃ u, exec (.call tok) s = .next u
              ∧ StoredOnly s u ((s.reg .esp).toInt - 4).toNat (wrap32 (s.pc + 4))
              ∧ (u.reg .esp).toInt = (s.reg .esp).toInt - 4
              ∧ u.reg .eip = wrap32 t
              ∧ (∀ r, r ≠ .esp → r ≠ .eip → u.reg r = s.reg r)
              ∧ SameControl s u)

/-- RET (R129): an ESP that is no valid address is a MEMORY_ERROR (D34); else a top word that names no slot of the
program is a PC_ERROR; else EIP is the top word, ESP rises by 4 without a further check (D16), and nothing else
changes. -/
def Obligations.RetGoesToTheReturnAddress : Prop :=
  ∀ (s : State) (r : Word), r = s.mem.read (s.reg .esp).toInt.toNat →
    (¬ ValidAddr s.cfg (s.reg .esp).toInt → exec .ret s = .next { s with status := .faulted .memoryError })
    ∧ (ValidAddr s.cfg (s.reg .esp).toInt →
        ¬ (0 ≤ r.toInt ∧ r.toInt < (s.imem.length : Int) * 4 ∧ r.toInt % 4 = 0) →
          exec .ret s = .next { s with status := .faulted .pcError })
    ∧ (ValidAddr s.cfg (s.reg .esp).toInt →
        0 ≤ r.toInt → r.toInt < (s.imem.length : Int) * 4 → r.toInt % 4 = 0 →
          ∃ t, exec .ret s = .next t
            ∧ t.reg .eip = r
            ∧ t.reg .esp = wrap32 ((s.reg .esp).toInt + 4)
            ∧ (∀ q, q ≠ .esp → q ≠ .eip → t.reg q = s.reg q)
            ∧ SameMemory s t ∧ SameControl s t)

/-- A CALL followed immediately by a RET comes back to the slot after the CALL: two steps of the machine from a slot
that holds `CALL` and a label whose next slot holds `RET` (R128, R129; 95_test_vectors.md A7). Rests on D16 and D32 (an
ESP one past the top is included) and on D17 (no advance after either). -/
def Obligations.CallThenRetComesBackAfterTheCall : Prop :=
  ∀ (s : State) (tok : Token) (t : Int) (k : Nat), s.inv → s.status = .running →
    s.pc = (k : Int) * 4 → s.imem[k]? = some (['C', 'A', 'L', 'L', ' '] ++ tok) → tokenOk tok = true →
    LabelAddr s.imem tok t → s.imem[(t / 4).toNat]? = some ['R', 'E', 'T'] →
    k + 1 < s.imem.length → PushRoom s →
      ∃ u, stepTimes 2 s = some u
        ∧ u.pc = s.pc + 4
        ∧ (∀ r, r ≠ .eip → u.reg r = s.reg r)
        ∧ StoredOnly s u ((s.reg .esp).toInt - 4).toNat (wrap32 (s.pc + 4))
        ∧ SameControl s u

/-! ### The host operations (43_sequencer.md R150, R151) -/

/-- A single-instruction operation neither changes the status, the program nor the parameters, and adds nothing to EIP
(R150, D30): the data and stack operations leave EIP alone unless their destination token is `%EIP`; a jump leaves it
alone or sets it to the label's address; CALL, on SUCCESS, sets it to the label's address and RET to the top word. -/
def Obligations.HostOperationDoesNotAdvanceEip : Prop :=
  ∀ (c : ExecCall) (s t : State) (code : ResultCode), hostExec c s = .ok (code, t) →
    t.status = s.status ∧ t.imem = s.imem ∧ t.cfg = s.cfg
    ∧ (∀ t1 t2 : Token, resolve t2 ≠ .reg .eip →
        c = .movl t1 t2 ∨ c = .addl t1 t2 ∨ c = .subl t1 t2 → t.reg .eip = s.reg .eip)
    ∧ (∀ t1 t2 : Token, c = .cmpl t1 t2 ∨ c = .pushl t1 → t.reg .eip = s.reg .eip)
    ∧ (∀ t1 : Token, resolve t1 ≠ .reg .eip → c = .popl t1 → t.reg .eip = s.reg .eip)
    ∧ (∀ (kind : JumpKind) (tok : Token), c = .jump kind tok →
        t = s ∨ ∃ a : Int, LabelAddr s.imem tok a ∧ t = s.withEip (wrap32 a))
    ∧ (∀ tok : Token, c = .call tok → code = .success →
        ∃ a : Int, LabelAddr s.imem tok a ∧ t.reg .eip = wrap32 a)
    ∧ (c = .ret → code = .success → t.reg .eip = s.mem.read (s.reg .esp).toInt.toNat)

/-- RUN under a step bound (R150, R151; D31): when it ends, the status is terminal, the end state is that of some number
of steps within the bound, and a larger bound ends in the same state. -/
def Obligations.RunEndsAsItsStepsDoWhateverTheBound : Prop :=
  ∀ (n : Nat) (s t : State), runUntilStop n s = .ended t →
    t.status ≠ .running
    ∧ (∃ k, k ≤ n ∧ stepTimes k s = some t)
    ∧ ∀ m, n ≤ m → runUntilStop m s = .ended t

/-- A line placed by the loader's stand-in is the one the next step fetches, from every state with legal parameters
(log entry 3). -/
def Obligations.PlacedLineIsFetched : Prop :=
  ∀ (s : State) (l : Line), s.cfg.wf = true →
    (s.placeLine l).fetch = .line l ∧ (s.placeLine l).status = .running
    ∧ (s.programOk = true → lineOk l = true → (s.placeLine l).programOk = true)

/-- EXEC_JUMP of a machine with a well-formed program (R150, D30; 42_control_flow.md R121 to R126): PC_ERROR and the same
state when the label is not found, whatever the condition; else SUCCESS, with EIP at the label's address when the
condition holds, its own address included, and the same state when it does not. -/
def Obligations.HostJumpSetsEipWhenItsConditionHolds : Prop :=
  ∀ (s : State) (tok : Token) (kind : JumpKind) (holds : Prop), s.programOk = true →
    (kind, holds) ∈ [(JumpKind.jmp, True), (JumpKind.je, s.flag.value = 0), (JumpKind.jne, s.flag.value ≠ 0),
                     (JumpKind.jl, s.flag.value = -1), (JumpKind.jg, s.flag.value = 1)] →
    (NoLabel s.imem tok → hostExec (.jump kind tok) s = .ok (.pcError, s))
    ∧ ∀ a : Int, LabelAddr s.imem tok a →
        (holds → hostExec (.jump kind tok) s = .ok (.success, s.withEip (wrap32 a)))
        ∧ (¬ holds → hostExec (.jump kind tok) s = .ok (.success, s))

/-- EXEC_CALL and EXEC_RET of a machine with a well-formed program report what the CALL and RET executors do (R150, D30;
42_control_flow.md R128, R129): SUCCESS with the pushed return address and the label's address, or with the popped one
and ESP raised, and nothing else changed; or the error's code with the state as it was. Rests on D16, D32 and D34. -/
def Obligations.HostCallAndRetReportTheirExecutors : Prop :=
  (∀ (s : State) (tok : Token), s.programOk = true →
    (NoLabel s.imem tok → hostExec (.call tok) s = .ok (.pcError, s))
    ∧ ∀ a : Int, LabelAddr s.imem tok a →
        (¬ PushRoom s → hostExec (.call tok) s = .ok (.memoryError, s))
        ∧ (PushRoom s →
            ∃ u, hostExec (.call tok) s = .ok (.success, u)
              ∧ StoredOnly s u ((s.reg .esp).toInt - 4).toNat (wrap32 (s.pc + 4))
              ∧ (u.reg .esp).toInt = (s.reg .esp).toInt - 4
              ∧ u.reg .eip = wrap32 a
              ∧ (∀ r, r ≠ .esp → r ≠ .eip → u.reg r = s.reg r)
              ∧ SameControl s u))
  ∧ ∀ (s : State) (r : Word), s.programOk = true → r = s.mem.read (s.reg .esp).toInt.toNat →
    (¬ ValidAddr s.cfg (s.reg .esp).toInt → hostExec .ret s = .ok (.memoryError, s))
    ∧ (ValidAddr s.cfg (s.reg .esp).toInt →
        ¬ (0 ≤ r.toInt ∧ r.toInt < (s.imem.length : Int) * 4 ∧ r.toInt % 4 = 0) →
          hostExec .ret s = .ok (.pcError, s))
    ∧ (ValidAddr s.cfg (s.reg .esp).toInt →
        0 ≤ r.toInt → r.toInt < (s.imem.length : Int) * 4 → r.toInt % 4 = 0 →
          ∃ t, hostExec .ret s = .ok (.success, t)
            ∧ t.reg .eip = r
            ∧ t.reg .esp = wrap32 ((s.reg .esp).toInt + 4)
            ∧ (∀ q, q ≠ .esp → q ≠ .eip → t.reg q = s.reg q)
            ∧ SameMemory s t ∧ SameControl s t)
end

