-- ==== Sys2Proof/Laws/Text.lean ====
section
/-! SUPPORT. Lemmas about tokens, lines and numerals (30_encoding.md R61, R63, R68). -/
namespace Sys2Proof

/-! ### Token characters -/

theorem isTokenChar_iff (c : Char) : isTokenChar c = true ↔ isPrintable c = true ∧ c ≠ ' ' := by
  simp [isTokenChar]

theorem tokenOk_append {a b : Token} : tokenOk (a ++ b) = (tokenOk a && tokenOk b) := by
  simp [tokenOk, List.all_append]

theorem tokenOk_cons {c : Char} {t : Token} : tokenOk (c :: t) = (isTokenChar c && tokenOk t) := rfl

theorem tokenOk_printable {t : Token} (h : tokenOk t = true) : t.all isPrintable = true := by
  simp only [tokenOk, List.all_eq_true] at h ⊢
  exact fun c hc => ((isTokenChar_iff c).mp (h c hc)).1

theorem tokenOk_no_space {t : Token} (h : tokenOk t = true) : ' ' ∉ t := by
  simp only [tokenOk, List.all_eq_true] at h
  exact fun hs => ((isTokenChar_iff ' ').mp (h ' ' hs)).2 rfl

/-! ### Well-formed lines from tokens -/

theorem noDoubleSpace_of_no_space {t : Line} (h : ' ' ∉ t) : noDoubleSpace t = true := by
  induction t with
  | nil => rfl
  | cons a rest ih =>
    cases rest with
    | nil => rfl
    | cons b rest =>
      have ha : a ≠ ' ' := fun e => h (by simp [e])
      simp [noDoubleSpace, ha, ih (fun hs => h (by simp [hs]))]

theorem noDoubleSpace_cons_of_ne {a : Char} {l : Line} (h : a ≠ ' ') :
    noDoubleSpace (a :: l) = noDoubleSpace l := by
  cases l with
  | nil => rfl
  | cons b rest => simp [noDoubleSpace, h]

theorem noDoubleSpace_space_cons {l : Line} (h : l.head? ≠ some ' ') :
    noDoubleSpace (' ' :: l) = noDoubleSpace l := by
  cases l with
  | nil => rfl
  | cons b rest =>
    have hb : b ≠ ' ' := by simpa using h
    simp [noDoubleSpace, hb]

theorem noDoubleSpace_token_append {t l : Line} (ht : ' ' ∉ t) :
    noDoubleSpace (t ++ l) = noDoubleSpace l := by
  induction t with
  | nil => rfl
  | cons a rest ih =>
    have ha : a ≠ ' ' := fun e => ht (by simp [e])
    rw [List.cons_append, noDoubleSpace_cons_of_ne ha, ih (fun hs => ht (by simp [hs]))]

/-- No two adjacent spaces, said by position (R61). -/
theorem noDoubleSpace_iff (l : Line) :
    noDoubleSpace l = true ↔ ∀ i : Nat, ¬ (l[i]? = some ' ' ∧ l[i + 1]? = some ' ') := by
  induction l with
  | nil => simp [noDoubleSpace]
  | cons a rest ih =>
    cases rest with
    | nil => simp [noDoubleSpace]
    | cons b rest =>
      rw [noDoubleSpace, Bool.and_eq_true, ih]
      constructor
      · rintro ⟨h0, h⟩ (_ | i)
        · simpa [imp_iff_not_or] using h0
        · simpa using h i
      · intro h
        exact ⟨by simpa [imp_iff_not_or] using h 0, fun i => by simpa using h (i + 1)⟩

theorem head_ne_space_of_token {t : Token} (h : tokenOk t = true) : t.head? ≠ some ' ' := by
  intro hh
  exact tokenOk_no_space h (List.mem_of_mem_head? hh)

/-- A token is a well-formed line. -/
theorem lineOk_of_token {t : Token} (h : tokenOk t = true) : lineOk t = true := by
  simp only [lineOk, Bool.and_eq_true, bne_iff_ne]
  refine ⟨⟨⟨tokenOk_printable h, head_ne_space_of_token h⟩, fun hl => ?_⟩,
    noDoubleSpace_of_no_space (tokenOk_no_space h)⟩
  exact tokenOk_no_space h (List.mem_of_getLast? hl)

/-- A token, one space and a further non-empty well-formed line make a well-formed line. -/
theorem lineOk_cons_token {t : Token} {l : Line} (ht : tokenOk t = true) (hn : t ≠ []) (hl : lineOk l = true)
    (hln : l ≠ []) : lineOk (t ++ ' ' :: l) = true := by
  simp only [lineOk, Bool.and_eq_true, bne_iff_ne] at hl ⊢
  obtain ⟨⟨⟨h1, h2⟩, h3⟩, h4⟩ := hl
  refine ⟨⟨⟨?_, ?_⟩, ?_⟩, ?_⟩
  · have hs : isPrintable ' ' = true := by decide
    rw [List.all_append, List.all_cons, tokenOk_printable ht, hs, h1]; rfl
  · cases t with
    | nil => exact absurd rfl hn
    | cons a rest => simpa using head_ne_space_of_token ht
  · have : (t ++ ' ' :: l).getLast? = l.getLast? := by
      cases l with
      | nil => exact absurd rfl hln
      | cons b rest => simp [List.getLast?_append, List.getLast?_cons]
    rw [this]; exact h3
  · rw [noDoubleSpace_token_append (tokenOk_no_space ht), noDoubleSpace_space_cons h2]; exact h4

/-! ### Cutting at spaces -/

/-- A string without a space is one piece. -/
theorem cutAtSpaces_of_no_space {t : Token} (h : ' ' ∉ t) : cutAtSpaces t = [t] := by
  induction t with
  | nil => rfl
  | cons c rest ih =>
    have hc : c ≠ ' ' := fun e => h (by simp [e])
    simp [cutAtSpaces, hc, ih (fun hs => h (by simp [hs]))]

/-- The first piece ends at the first space. -/
theorem cutAtSpaces_token_append {t : Token} (l : Line) (h : ' ' ∉ t) :
    cutAtSpaces (t ++ ' ' :: l) = t :: cutAtSpaces l := by
  induction t with
  | nil => simp [cutAtSpaces]
  | cons c rest ih =>
    have hc : c ≠ ' ' := fun e => h (by simp [e])
    simp [cutAtSpaces, hc, ih (fun hs => h (by simp [hs]))]

theorem cutAtSpaces_ne_nil (l : Line) : cutAtSpaces l ≠ [] := by
  cases l with
  | nil => simp [cutAtSpaces]
  | cons c rest =>
    simp only [cutAtSpaces]
    split
    · simp
    · split <;> simp

/-- No piece holds a space. -/
theorem cutAtSpaces_no_space (l : Line) : ∀ t ∈ cutAtSpaces l, ' ' ∉ t := by
  induction l with
  | nil => simp [cutAtSpaces]
  | cons c rest ih =>
    intro t ht
    simp only [cutAtSpaces] at ht
    split at ht
    · rcases List.mem_cons.mp ht with rfl | ht
      · simp
      · exact ih t ht
    · next hc =>
      have hc : c ≠ ' ' := by simpa using hc
      split at ht
      · simp only [List.mem_singleton] at ht
        subst ht; simpa using hc.symm
      · next u us hu =>
        rcases List.mem_cons.mp ht with rfl | ht
        · have := ih u (by simp [hu])
          simp [hc.symm, this]
        · exact ih t (by simp [hu, ht])

/-- Every character of a piece is a character of the line. -/
theorem mem_of_mem_cutAtSpaces (l : Line) : ∀ t ∈ cutAtSpaces l, ∀ c ∈ t, c ∈ l := by
  induction l with
  | nil => simp [cutAtSpaces]
  | cons a rest ih =>
    intro t ht c hc
    simp only [cutAtSpaces] at ht
    split at ht
    · rcases List.mem_cons.mp ht with rfl | ht
      · simp at hc
      · exact List.mem_cons_of_mem _ (ih t ht c hc)
    · split at ht
      · simp only [List.mem_singleton] at ht
        subst ht
        simp only [List.mem_singleton] at hc
        simp [hc]
      · next u us hu =>
        rcases List.mem_cons.mp ht with rfl | ht
        · rcases List.mem_cons.mp hc with rfl | hc
          · simp
          · exact List.mem_cons_of_mem _ (ih u (by simp [hu]) c hc)
        · exact List.mem_cons_of_mem _ (ih t (by simp [hu, ht]) c hc)

/-! ### Numerals -/

theorem digitChar_toNat {n : Nat} (h : n < 10) : (digitChar n).toNat = 48 + n := by
  revert n; decide

theorem digitChar_isDigit {n : Nat} (h : n < 10) : (digitChar n).isDigit = true := by
  revert n; decide

theorem isTokenChar_of_isDigit {c : Char} (h : c.isDigit = true) : isTokenChar c = true := by
  have h1 : 48 ≤ c.toNat ∧ c.toNat ≤ 57 := by
    simp only [Char.isDigit, Bool.and_eq_true, decide_eq_true_eq] at h
    exact ⟨by simpa using UInt32.le_iff_toNat_le.mp h.1, by simpa using UInt32.le_iff_toNat_le.mp h.2⟩
  rw [isTokenChar_iff]
  refine ⟨by simp only [isPrintable, Bool.and_eq_true, decide_eq_true_eq]; omega, ?_⟩
  rintro rfl
  revert h1; decide

theorem printDigits_isDigit (fuel n : Nat) : ∀ c ∈ printDigits fuel n, c.isDigit = true := by
  induction fuel generalizing n with
  | zero => simp [printDigits]
  | succ fuel ih =>
    intro c hc
    simp only [printDigits] at hc
    split at hc
    · next h =>
      simp only [List.mem_singleton] at hc
      subst hc; exact digitChar_isDigit h
    · rcases List.mem_append.mp hc with hc | hc
      · exact ih _ c hc
      · simp only [List.mem_singleton] at hc
        subst hc; exact digitChar_isDigit (Nat.mod_lt _ (by decide))

theorem printDigits_ne_nil (fuel n : Nat) : printDigits (fuel + 1) n ≠ [] := by
  simp only [printDigits]
  split <;> simp

theorem tokenOk_printDigits (fuel n : Nat) : tokenOk (printDigits fuel n) = true := by
  simp only [tokenOk, List.all_eq_true]
  exact fun c hc => isTokenChar_of_isDigit (printDigits_isDigit fuel n c hc)

theorem tokenOk_printNumber (v : Word) : tokenOk (printNumber v) = true := by
  unfold printNumber
  split
  · rw [tokenOk_cons, tokenOk_printDigits]; decide
  · exact tokenOk_printDigits _ _

theorem digitsValue_append_singleton (ds : List Char) (c : Char) :
    digitsValue (ds ++ [c]) = digitsValue ds * 10 + digitValue c := by
  simp [digitsValue, List.foldl_append]

/-- Reading back the digits printed gives the number, when the digits suffice. -/
theorem digitsValue_printDigits (fuel n : Nat) (h : n < 10 ^ fuel) : digitsValue (printDigits fuel n) = n := by
  induction fuel generalizing n with
  | zero => simp only [Nat.pow_zero, Nat.lt_one_iff] at h; simp [printDigits, digitsValue, h]
  | succ fuel ih =>
    simp only [printDigits]
    split
    · next hn => simp [digitsValue, digitValue, digitChar_toNat hn]
    · rw [digitsValue_append_singleton, ih _ (by rw [Nat.pow_succ] at h; omega)]
      simp only [digitValue, digitChar_toNat (Nat.mod_lt n (by decide : 10 > 0))]
      omega

/-! ### Tokens of registers, operands and mnemonics -/

theorem Reg.tokenOk_token (r : Reg) : tokenOk r.token = true := by cases r <;> decide

theorem Mnemonic.tokenOk_text (m : Mnemonic) : tokenOk m.text = true := by cases m <;> decide

theorem Mnemonic.text_ne_nil (m : Mnemonic) : m.text ≠ [] := by cases m <;> decide

theorem Operand.tokenOk_token (op : Operand) : tokenOk op.token = true := by
  cases op with
  | reg r => exact Reg.tokenOk_token r
  | mem b o =>
    have hc : tokenOk [')'] = true := by decide
    have ho : isTokenChar '(' = true := by decide
    simp only [Operand.token, tokenOk_append, tokenOk_cons, tokenOk_printNumber,
      Reg.tokenOk_token, hc, ho, Bool.and_self]
  | imm v =>
    have hd : isTokenChar '$' = true := by decide
    simp only [Operand.token, tokenOk_cons, tokenOk_printNumber, hd, Bool.and_self]
  | invalid => decide

theorem Operand.token_ne_nil (op : Operand) : op.token ≠ [] := by
  cases op with
  | reg r => cases r <;> decide
  | mem b o => simp [Operand.token]
  | imm v => simp [Operand.token]
  | invalid => decide

end Sys2Proof
end

