-- ==== Sys2Proof/Laws/Decode.lean ====
section
/-! SUPPORT. What the opcode map finds, how a line of each kind decodes, and which tokens are numerals
(30_encoding.md R62, R68, R69, R72). -/
namespace Sys2Proof

/-! ### The opcode map -/

theorem Mnemonic.text_injective : ∀ m m' : Mnemonic, m.text = m'.text → m = m' := by
  intro m m' h
  cases m <;> cases m' <;> first | rfl | (exact absurd h (by decide))

theorem Mnemonic.mem_all (m : Mnemonic) : m ∈ Mnemonic.all := by cases m <;> decide

theorem Mnemonic.present_iff (cfg : Config) (m : Mnemonic) :
    m.present cfg = true ↔ (m = .subl → cfg.sublImplemented = true) := by
  cases m <;> simp [Mnemonic.present]

/-- The opcode map finds a mnemonic exactly on its own text, and `SUBL` only where it is implemented (R72). -/
theorem findMnemonic_eq_some_iff (cfg : Config) (t : Token) (m : Mnemonic) :
    findMnemonic cfg t = some m ↔ t = m.text ∧ (m = .subl → cfg.sublImplemented = true) := by
  rw [← Mnemonic.present_iff]
  constructor
  · intro h
    have := List.find?_some h
    simp only [Bool.and_eq_true, beq_iff_eq] at this
    exact ⟨this.1.symm, this.2⟩
  · rintro ⟨rfl, hp⟩
    cases hf : findMnemonic cfg m.text with
    | none =>
      have := List.find?_eq_none.mp hf m m.mem_all
      simp [hp] at this
    | some m' =>
      have := List.find?_some hf
      simp only [Bool.and_eq_true, beq_iff_eq] at this
      rw [Mnemonic.text_injective _ _ this.1]

/-- The written-out formats are the decoder's: a mnemonic's text with its number of operand tokens (R64). -/
theorem mem_opcodeFormats_iff (t : Token) (n : Nat) :
    (t, n) ∈ Machine.opcodeFormats ↔ ∃ m : Mnemonic, t = m.text ∧ n = m.arity := by
  have h : Machine.opcodeFormats = Mnemonic.all.map (fun m => (m.text, m.arity)) := rfl
  rw [h, List.mem_map]
  exact ⟨fun ⟨m, _, e⟩ => ⟨m, (congrArg Prod.fst e).symm, (congrArg Prod.snd e).symm⟩,
    fun ⟨m, ht, hn⟩ => ⟨m, m.mem_all, by rw [ht, hn]⟩⟩

/-! ### The kinds of line -/

/-- The check of a line is R61's four conditions. -/
theorem lineOk_iff (l : Line) : lineOk l = true ↔ Machine.LineWellFormed l := by
  simp only [lineOk, Machine.LineWellFormed, Bool.and_eq_true, bne_iff_ne, noDoubleSpace_iff, List.all_eq_true,
    isPrintable, decide_eq_true_eq, and_assoc, ne_eq]

/-- A well-formed opcode line goes to its mnemonic's format (R62, R64). -/
theorem decode_opcode {cfg : Config} {l : Line} {m : Mnemonic} {operands : List Token} (hl : lineOk l = true)
    (he : l ≠ cfg.endMarker) (ht : tokenise l = m.text :: operands)
    (hm : m = .subl → cfg.sublImplemented = true) : decode cfg l = decodeOpcodeLine m operands := by
  simp [decode, hl, he, ht, (findMnemonic_eq_some_iff cfg m.text m).mpr ⟨rfl, hm⟩]

/-- A well-formed line that is neither the end marker nor an opcode line is a label line or an unrecognised one
(R62, R73). -/
theorem decode_other {cfg : Config} {l : Line} (hl : lineOk l = true) (he : l ≠ cfg.endMarker)
    (hn : ∀ (m : Mnemonic) (operands : List Token), tokenise l = m.text :: operands →
      m = .subl ∧ cfg.sublImplemented = false) : decode cfg l = .ok (decodeOtherLine l) := by
  simp only [decode, hl, he, Bool.not_true, Bool.false_eq_true, beq_iff_eq, if_false]
  cases ht : tokenise l with
  | nil => rfl
  | cons t0 operands =>
    cases hf : findMnemonic cfg t0 with
    | none => simp [hf]
    | some m =>
      obtain ⟨rfl, hp⟩ := (findMnemonic_eq_some_iff cfg t0 m).mp hf
      obtain ⟨rfl, hs⟩ := hn m operands ht
      simp [hs] at hp

/-- The four ways a line decodes, once. -/
theorem decode_cases (cfg : Config) (l : Line) :
    (lineOk l = false ∧ decode cfg l = .error .illFormedLine) ∨
    (lineOk l = true ∧ l = cfg.endMarker ∧ decode cfg l = .ok .endMarker) ∨
    (lineOk l = true ∧ l ≠ cfg.endMarker ∧ ∃ (m : Mnemonic) (operands : List Token),
      tokenise l = m.text :: operands ∧ (m = .subl → cfg.sublImplemented = true) ∧
        decode cfg l = decodeOpcodeLine m operands) ∨
    (lineOk l = true ∧ l ≠ cfg.endMarker ∧ (∀ (m : Mnemonic) (operands : List Token),
      tokenise l = m.text :: operands → m = .subl ∧ cfg.sublImplemented = false) ∧
        decode cfg l = .ok (decodeOtherLine l)) := by
  cases hl : lineOk l with
  | false => exact .inl ⟨rfl, by simp [decode, hl]⟩
  | true =>
    by_cases he : l = cfg.endMarker
    · exact .inr (.inl ⟨rfl, he, by rw [decode, hl, ← he]; simp⟩)
    · by_cases hm : ∃ (m : Mnemonic) (operands : List Token),
        tokenise l = m.text :: operands ∧ (m = .subl → cfg.sublImplemented = true)
      · obtain ⟨m, operands, ht, hs⟩ := hm
        exact .inr (.inr (.inl ⟨rfl, he, m, operands, ht, hs, decode_opcode hl he ht hs⟩))
      · have hn : ∀ (m : Mnemonic) (operands : List Token), tokenise l = m.text :: operands →
            m = .subl ∧ cfg.sublImplemented = false := by
          intro m operands ht
          by_contra hc
          exact hm ⟨m, operands, ht, fun h => by simpa [h] using hc⟩
        exact .inr (.inr (.inr ⟨rfl, he, hn, decode_other hl he hn⟩))

/-! ### Tokenising the encoder's lines -/

theorem tokenise_of_token {t : Token} (h : ' ' ∉ t) (hn : t ≠ []) : tokenise t = [t] := by
  simp [tokenise, hn, cutAtSpaces_of_no_space h]

theorem tokenise_token_append {t : Token} (l : Line) (h : ' ' ∉ t) :
    tokenise (t ++ ' ' :: l) = t :: cutAtSpaces l := by
  simp [tokenise, cutAtSpaces_token_append l h]

theorem tokenise_two {t u : Token} (ht : ' ' ∉ t) (hu : ' ' ∉ u) : tokenise (t ++ ' ' :: u) = [t, u] := by
  rw [tokenise_token_append u ht, cutAtSpaces_of_no_space hu]

theorem tokenise_three {t u v : Token} (ht : ' ' ∉ t) (hu : ' ' ∉ u) (hv : ' ' ∉ v) :
    tokenise (t ++ ' ' :: (u ++ ' ' :: v)) = [t, u, v] := by
  rw [tokenise_token_append _ ht, cutAtSpaces_token_append v hu, cutAtSpaces_of_no_space hv]

/-! ### Numerals -/

theorem isDigit_iff (c : Char) : c.isDigit = true ↔ Machine.IsDecimal c := by
  simp only [Char.isDigit, Machine.IsDecimal, Bool.and_eq_true, decide_eq_true_eq]
  exact ⟨fun h => ⟨by simpa using UInt32.le_iff_toNat_le.mp h.1, by simpa using UInt32.le_iff_toNat_le.mp h.2⟩,
    fun h => ⟨UInt32.le_iff_toNat_le.mpr (by simpa using h.1), UInt32.le_iff_toNat_le.mpr (by simpa using h.2)⟩⟩

theorem digitsValue_foldl (ds : List Char) (acc : Nat) :
    ds.foldl (fun acc c => acc * 10 + digitValue c) acc = acc * 10 ^ ds.length + Machine.placeValue ds := by
  induction ds generalizing acc with
  | nil => simp [Machine.placeValue]
  | cons c rest ih =>
    rw [List.foldl_cons, ih, Machine.placeValue, List.length_cons, digitValue, Nat.pow_succ]
    ring

theorem digitsValue_eq_placeValue (ds : List Char) : digitsValue ds = Machine.placeValue ds := by
  simpa [digitsValue] using digitsValue_foldl ds 0

theorem parseDigits_eq_some_iff (ds : List Char) (n : Nat) :
    parseDigits ds = some n ↔ ds ≠ [] ∧ (∀ c ∈ ds, Machine.IsDecimal c) ∧ n = Machine.placeValue ds := by
  simp only [parseDigits, digitsValue_eq_placeValue]
  by_cases h : ds ≠ [] ∧ ∀ c ∈ ds, Machine.IsDecimal c
  · have : (!ds.isEmpty && ds.all Char.isDigit) = true := by
      simp only [Bool.and_eq_true, List.all_eq_true, isDigit_iff]
      exact ⟨by simpa using h.1, h.2⟩
    rw [if_pos this]
    exact ⟨fun e => ⟨h.1, h.2, by simpa using e.symm⟩, fun e => by rw [e.2.2]⟩
  · have : ¬ (!ds.isEmpty && ds.all Char.isDigit) = true := by
      simp only [Bool.and_eq_true, List.all_eq_true, isDigit_iff]
      exact fun hh => h ⟨by simpa using hh.1, hh.2⟩
    rw [if_neg this]
    simp only [reduceCtorEq, false_iff]
    exact fun hh => h ⟨hh.1, hh.2.1⟩

/-- The value of a numeral, before the range is looked at (R68). -/
theorem parseSigned_eq_some_iff (t : Token) (z : Int) :
    parseSigned t = some z ↔ ∃ ds : List Char, ds ≠ [] ∧ (∀ c ∈ ds, Machine.IsDecimal c) ∧
      ((t = ds ∧ z = (Machine.placeValue ds : Int)) ∨ (t = '-' :: ds ∧ z = -(Machine.placeValue ds : Int))) := by
  have minus : ¬ Machine.IsDecimal '-' := fun h => absurd h.1 (by decide)
  unfold parseSigned
  split
  · simp
  · next c ds =>
    by_cases hc : c = '-'
    · subst hc
      simp only [beq_self_eq_true, if_true]
      constructor
      · split
        · next n hn =>
          intro h
          obtain ⟨h1, h2, rfl⟩ := (parseDigits_eq_some_iff ds n).mp hn
          exact ⟨ds, h1, h2, .inr ⟨rfl, by simpa using h.symm⟩⟩
        · simp
      · rintro ⟨ds', h1, h2, ⟨rfl, -⟩ | ⟨e, rfl⟩⟩
        · exact absurd (h2 '-' (by simp)) minus
        · obtain rfl : ds = ds' := by simpa using e
          rw [(parseDigits_eq_some_iff ds _).mpr ⟨h1, h2, rfl⟩]
    · simp only [beq_iff_eq, hc, if_false]
      constructor
      · split
        · next n hn =>
          intro h
          obtain ⟨h1, h2, rfl⟩ := (parseDigits_eq_some_iff (c :: ds) n).mp hn
          exact ⟨c :: ds, h1, h2, .inl ⟨rfl, by simpa using h.symm⟩⟩
        · simp
      · rintro ⟨ds', h1, h2, ⟨rfl, rfl⟩ | ⟨e, -⟩⟩
        · rw [(parseDigits_eq_some_iff (c :: ds) _).mpr ⟨h1, h2, rfl⟩]
        · exact absurd (by simpa using And.left (by simpa using e)) hc

/-- The decoder reads a token as a number exactly when it is that number's numeral and the number is a W32 (R68). -/
theorem parseNumber_eq_some_iff (t : Token) (v : Word) :
    parseNumber t = some v ↔ Machine.NumeralOf t v := by
  have hlow := BitVec.le_toInt v
  have hhigh := BitVec.toInt_lt (x := v)
  simp only [Nat.add_one_sub_one] at hlow hhigh
  have h : parseNumber t = some v ↔ parseSigned t = some v.toInt := by
    unfold parseNumber
    cases hp : parseSigned t with
    | none => simp
    | some z =>
      simp only [Option.some.injEq]
      by_cases hz : -2147483648 ≤ z ∧ z ≤ 2147483647
      · rw [if_pos hz, Option.some.injEq]
        constructor
        · rintro rfl
          rw [BitVec.toInt_ofInt]
          exact (Int.bmod_eq_of_le (by omega) (by omega)).symm
        · rintro rfl
          exact BitVec.ofInt_toInt
      · rw [if_neg hz]
        simp only [reduceCtorEq, false_iff]
        rintro rfl
        exact hz ⟨by omega, by omega⟩
  rw [h, parseSigned_eq_some_iff]
  rfl

/-- The numeral the encoder prints is the word's numeral. -/
theorem parseNumber_printNumber (v : Word) : parseNumber (printNumber v) = some v := by
  have hlow := BitVec.le_toInt v
  have hhigh := BitVec.toInt_lt (x := v)
  simp only [Nat.add_one_sub_one] at hlow hhigh
  have hd : ∀ n : Nat, ∀ c ∈ printDigits 10 n, Machine.IsDecimal c := fun n c hc =>
    (isDigit_iff c).mp (printDigits_isDigit 10 n c hc)
  have hv : Machine.placeValue (printDigits 10 v.toInt.natAbs) = v.toInt.natAbs := by
    rw [← digitsValue_eq_placeValue, digitsValue_printDigits _ _ (by omega)]
  rw [parseNumber_eq_some_iff]
  refine ⟨printDigits 10 v.toInt.natAbs, printDigits_ne_nil _ _, hd _, ?_⟩
  unfold printNumber
  split
  · exact .inr ⟨rfl, by omega⟩
  · exact .inl ⟨rfl, by omega⟩

end Sys2Proof
end

