-- ==== Sys2Proof/Laws/State.lean ====
section
/-! SUPPORT. One lemma per field and update of State, so that no later proof unfolds an update. -/
namespace Sys2Proof.Machine

/-! ### The register file -/

@[simp] theorem Regs.get_set (x : Regs) (r r' : Reg) (v : Word) :
    (x.set r v).get r' = if r' = r then v else x.get r' := by
  cases r <;> cases r' <;> rfl

theorem Regs.ext_get {x y : Regs} (h : ∀ r, x.get r = y.get r) : x = y := by
  cases x; cases y
  simp only [Regs.mk.injEq]
  exact ⟨h .eax, h .edx, h .ecx, h .esp, h .ebp, h .eip⟩

/-! ### setReg -/

@[simp] theorem State.setReg_cfg (s : State) (r : Reg) (v : Word) : (s.setReg r v).cfg = s.cfg := rfl
@[simp] theorem State.setReg_imem (s : State) (r : Reg) (v : Word) : (s.setReg r v).imem = s.imem := rfl
@[simp] theorem State.setReg_flag (s : State) (r : Reg) (v : Word) : (s.setReg r v).flag = s.flag := rfl
@[simp] theorem State.setReg_mem (s : State) (r : Reg) (v : Word) : (s.setReg r v).mem = s.mem := rfl
@[simp] theorem State.setReg_status (s : State) (r : Reg) (v : Word) : (s.setReg r v).status = s.status := rfl
@[simp] theorem State.setReg_regs (s : State) (r : Reg) (v : Word) : (s.setReg r v).regs = s.regs.set r v := rfl
@[simp] theorem State.setReg_reg (s : State) (r r' : Reg) (v : Word) :
    (s.setReg r v).reg r' = if r' = r then v else s.reg r' := Regs.get_set s.regs r r' v

/-! ### store -/

@[simp] theorem State.store_cfg (s : State) (a : Int) (v : Word) : (s.store a v).cfg = s.cfg := rfl
@[simp] theorem State.store_imem (s : State) (a : Int) (v : Word) : (s.store a v).imem = s.imem := rfl
@[simp] theorem State.store_regs (s : State) (a : Int) (v : Word) : (s.store a v).regs = s.regs := rfl
@[simp] theorem State.store_reg (s : State) (a : Int) (v : Word) (r : Reg) : (s.store a v).reg r = s.reg r := rfl
@[simp] theorem State.store_flag (s : State) (a : Int) (v : Word) : (s.store a v).flag = s.flag := rfl
@[simp] theorem State.store_status (s : State) (a : Int) (v : Word) : (s.store a v).status = s.status := rfl
@[simp] theorem State.store_mem (s : State) (a : Int) (v : Word) :
    (s.store a v).mem = s.mem.write a.toNat v := rfl

/-! ### The flag -/

@[simp] theorem State.withFlag_reg (s : State) (f : Flag) (r : Reg) : ({ s with flag := f } : State).reg r = s.reg r := rfl
@[simp] theorem State.withStatus_reg (s : State) (st : RunStatus) (r : Reg) :
    ({ s with status := st } : State).reg r = s.reg r := rfl

/-! ### enterFault and halt -/

@[simp] theorem State.enterFault_cfg (s : State) (c : ErrorCode) : (s.enterFault c).cfg = s.cfg := rfl
@[simp] theorem State.enterFault_imem (s : State) (c : ErrorCode) : (s.enterFault c).imem = s.imem := rfl
@[simp] theorem State.enterFault_regs (s : State) (c : ErrorCode) : (s.enterFault c).regs = s.regs := rfl
@[simp] theorem State.enterFault_reg (s : State) (c : ErrorCode) (r : Reg) : (s.enterFault c).reg r = s.reg r := rfl
@[simp] theorem State.enterFault_flag (s : State) (c : ErrorCode) : (s.enterFault c).flag = s.flag := rfl
@[simp] theorem State.enterFault_mem (s : State) (c : ErrorCode) : (s.enterFault c).mem = s.mem := rfl
@[simp] theorem State.enterFault_status (s : State) (c : ErrorCode) : (s.enterFault c).status = .faulted c := rfl
@[simp] theorem State.halt_cfg (s : State) (w : HaltReason) : (s.halt w).cfg = s.cfg := rfl
@[simp] theorem State.halt_imem (s : State) (w : HaltReason) : (s.halt w).imem = s.imem := rfl
@[simp] theorem State.halt_regs (s : State) (w : HaltReason) : (s.halt w).regs = s.regs := rfl
@[simp] theorem State.halt_reg (s : State) (w : HaltReason) (r : Reg) : (s.halt w).reg r = s.reg r := rfl
@[simp] theorem State.halt_flag (s : State) (w : HaltReason) : (s.halt w).flag = s.flag := rfl
@[simp] theorem State.halt_mem (s : State) (w : HaltReason) : (s.halt w).mem = s.mem := rfl
@[simp] theorem State.halt_status (s : State) (w : HaltReason) : (s.halt w).status = .halted w := rfl

/-! ### advance -/

@[simp] theorem State.advance_cfg (s : State) : s.advance.cfg = s.cfg := rfl
@[simp] theorem State.advance_imem (s : State) : s.advance.imem = s.imem := rfl
@[simp] theorem State.advance_flag (s : State) : s.advance.flag = s.flag := rfl
@[simp] theorem State.advance_mem (s : State) : s.advance.mem = s.mem := rfl
@[simp] theorem State.advance_status (s : State) : s.advance.status = s.status := rfl
@[simp] theorem State.advance_reg (s : State) (r : Reg) :
    s.advance.reg r = if r = .eip then wrap32 ((s.reg .eip).toInt + 4) else s.reg r :=
  State.setReg_reg s .eip r _

/-! ### raiseEsp and pushWord -/

@[simp] theorem raiseEsp_cfg (s : State) : (raiseEsp s).cfg = s.cfg := rfl
@[simp] theorem raiseEsp_imem (s : State) : (raiseEsp s).imem = s.imem := rfl
@[simp] theorem raiseEsp_flag (s : State) : (raiseEsp s).flag = s.flag := rfl
@[simp] theorem raiseEsp_mem (s : State) : (raiseEsp s).mem = s.mem := rfl
@[simp] theorem raiseEsp_status (s : State) : (raiseEsp s).status = s.status := rfl
@[simp] theorem raiseEsp_reg (s : State) (r : Reg) :
    (raiseEsp s).reg r = if r = .esp then wrap32 ((s.reg .esp).toInt + 4) else s.reg r :=
  State.setReg_reg s .esp r _

@[simp] theorem pushWord_cfg (s : State) (v : Word) : (pushWord s v).cfg = s.cfg := rfl
@[simp] theorem pushWord_imem (s : State) (v : Word) : (pushWord s v).imem = s.imem := rfl
@[simp] theorem pushWord_flag (s : State) (v : Word) : (pushWord s v).flag = s.flag := rfl
@[simp] theorem pushWord_status (s : State) (v : Word) : (pushWord s v).status = s.status := rfl
@[simp] theorem pushWord_mem (s : State) (v : Word) :
    (pushWord s v).mem = s.mem.write (pushAddr s).toNat v := rfl
@[simp] theorem pushWord_reg (s : State) (v : Word) (r : Reg) :
    (pushWord s v).reg r = if r = .esp then wrap32 (pushAddr s) else s.reg r :=
  State.setReg_reg (s.store (pushAddr s) v) .esp r _

/-! ### writeOperand -/

@[simp] theorem writeOperand_cfg (s : State) (d : Operand) (v : Word) : (writeOperand s d v).cfg = s.cfg := by
  cases d <;> rfl
@[simp] theorem writeOperand_imem (s : State) (d : Operand) (v : Word) : (writeOperand s d v).imem = s.imem := by
  cases d <;> rfl
@[simp] theorem writeOperand_flag (s : State) (d : Operand) (v : Word) : (writeOperand s d v).flag = s.flag := by
  cases d <;> rfl
@[simp] theorem writeOperand_status (s : State) (d : Operand) (v : Word) :
    (writeOperand s d v).status = s.status := by
  cases d <;> rfl

end Sys2Proof.Machine
end

