-- ==== Sys2Proof/Laws/Memory.lean ====
section
/-! SUPPORT. Data memory: a read after a write, and that every operation keeps the canonical form
(20_memory.md R42). -/
namespace Sys2Proof.Machine

theorem Memory.read_cons (b : Nat) (w : Word) (m : Memory) (a : Nat) :
    Memory.read ((b, w) :: m) a = if b = a then w else Memory.read m a := rfl

theorem Memory.read_without (m : Memory) (a b : Nat) :
    (m.without a).read b = if b = a then 0#32 else m.read b := by
  induction m with
  | nil => simp [Memory.without, Memory.read]
  | cons c rest ih =>
    obtain ⟨k, w⟩ := c
    by_cases hk : k = a
    · subst hk
      have : Memory.without ((k, w) :: rest) k = Memory.without rest k := by simp [Memory.without]
      rw [this, ih, Memory.read_cons]
      by_cases hb : b = k
      · simp [hb]
      · simp [hb, Ne.symm hb]
    · have : Memory.without ((k, w) :: rest) a = (k, w) :: Memory.without rest a := by
        simp [Memory.without, hk]
      rw [this, Memory.read_cons, Memory.read_cons, ih]
      by_cases hb : b = a
      · subst hb; simp [hk]
      · simp [hb]

theorem Memory.read_withWord (m : Memory) (a : Nat) (v : Word) (b : Nat)
    (h : m.read a = 0#32) (hn : ∀ c ∈ m, c.1 ≠ a) :
    (m.withWord a v).read b = if b = a then v else m.read b := by
  induction m with
  | nil =>
    by_cases hb : b = a
    · simp [Memory.withWord, Memory.read, hb]
    · simp [Memory.withWord, Memory.read, hb, Ne.symm hb]
  | cons c rest ih =>
    obtain ⟨k, w⟩ := c
    have hk : k ≠ a := hn (k, w) (by simp)
    by_cases hlt : k < a
    · have e : Memory.withWord ((k, w) :: rest) a v = (k, w) :: Memory.withWord rest a v := by
        simp [Memory.withWord, hlt]
      rw [e, Memory.read_cons, Memory.read_cons,
        ih (by simpa [Memory.read, hk] using h) (fun c hc => hn c (by simp [hc]))]
      by_cases hb : b = a
      · subst hb; simp [hk]
      · simp [hb]
    · have e : Memory.withWord ((k, w) :: rest) a v = (a, v) :: (k, w) :: rest := by
        simp [Memory.withWord, hlt]
      rw [e, Memory.read_cons]
      by_cases hb : b = a
      · simp [hb]
      · simp [hb, Ne.symm hb]

theorem Memory.ne_of_mem_without {m : Memory} {a : Nat} : ∀ c ∈ m.without a, c.1 ≠ a := by
  intro c hc
  simpa using (List.mem_filter.mp hc).2

/-- A read after a write: the written word at its address, and the old word everywhere else. -/
@[simp] theorem Memory.read_write (m : Memory) (a : Nat) (v : Word) (b : Nat) :
    (m.write a v).read b = if b = a then v else m.read b := by
  unfold Memory.write
  split
  · next h => rw [Memory.read_without, h]
  · rw [Memory.read_withWord _ _ _ _ (by simp [Memory.read_without]) Memory.ne_of_mem_without,
      Memory.read_without]
    by_cases hb : b = a <;> simp [hb]

theorem Memory.mem_withWord {m : Memory} {a : Nat} {v : Word} {c : MemCell}
    (h : c ∈ m.withWord a v) : c = (a, v) ∨ c ∈ m := by
  induction m with
  | nil => simpa [Memory.withWord] using h
  | cons k rest ih =>
    obtain ⟨k, w⟩ := k
    by_cases hlt : k < a
    · rw [show Memory.withWord ((k, w) :: rest) a v = (k, w) :: Memory.withWord rest a v by
        simp [Memory.withWord, hlt]] at h
      rcases List.mem_cons.mp h with h | h
      · exact .inr (by simp [h])
      · exact (ih h).imp id (by intro h; simp [h])
    · rw [show Memory.withWord ((k, w) :: rest) a v = (a, v) :: (k, w) :: rest by
        simp [Memory.withWord, hlt]] at h
      rcases List.mem_cons.mp h with h | h
      · exact .inl h
      · exact .inr h

/-- Every listed word of a written memory is the written one or was listed before. -/
theorem Memory.mem_write {m : Memory} {a : Nat} {v : Word} {c : MemCell}
    (h : c ∈ m.write a v) : c = (a, v) ∨ c ∈ m := by
  unfold Memory.write at h
  split at h
  · exact .inr (List.mem_filter.mp h).1
  · exact (Memory.mem_withWord h).imp id (fun h => (List.mem_filter.mp h).1)

theorem Memory.wf_nil : Memory.wf [] := ⟨List.Pairwise.nil, by simp⟩

theorem Memory.wf_without {m : Memory} (h : m.wf) (a : Nat) : (m.without a).wf :=
  ⟨h.1.filter _, fun c hc => h.2 c (List.mem_filter.mp hc).1⟩

theorem Memory.wf_withWord {m : Memory} (h : m.wf) {a : Nat} {v : Word} (hv : v ≠ 0#32)
    (hn : ∀ c ∈ m, c.1 ≠ a) : (m.withWord a v).wf := by
  refine ⟨?_, fun c hc => ?_⟩
  · induction m with
    | nil => simp [Memory.withWord]
    | cons k rest ih =>
      obtain ⟨k, w⟩ := k
      obtain ⟨hp, hz⟩ := h
      obtain ⟨hk, hrest⟩ := List.pairwise_cons.mp hp
      have hka : k ≠ a := hn (k, w) (by simp)
      by_cases hlt : k < a
      · rw [show Memory.withWord ((k, w) :: rest) a v = (k, w) :: Memory.withWord rest a v by
          simp [Memory.withWord, hlt]]
        refine List.pairwise_cons.mpr ⟨fun c hc => ?_, ?_⟩
        · rcases Memory.mem_withWord hc with rfl | hc
          · exact hlt
          · exact hk c hc
        · exact ih ⟨hrest, fun c hc => hz c (by simp [hc])⟩ (fun c hc => hn c (by simp [hc]))
      · rw [show Memory.withWord ((k, w) :: rest) a v = (a, v) :: (k, w) :: rest by
          simp [Memory.withWord, hlt]]
        refine List.pairwise_cons.mpr ⟨fun c hc => ?_, hp⟩
        rcases List.mem_cons.mp hc with rfl | hc
        · show a < k; omega
        · have := hk c hc; show a < c.1; simp only at this; omega
  · rcases Memory.mem_withWord hc with rfl | hc
    · exact hv
    · exact h.2 c hc

/-- A write keeps the canonical form. -/
theorem Memory.wf_write {m : Memory} (h : m.wf) (a : Nat) (v : Word) : (m.write a v).wf := by
  unfold Memory.write
  split
  · exact Memory.wf_without h a
  · next hv => exact Memory.wf_withWord (Memory.wf_without h a) hv Memory.ne_of_mem_without

theorem Memory.wf_store {s : State} (h : s.mem.wf) (a : Int) (v : Word) : (s.store a v).mem.wf :=
  Memory.wf_write h a.toNat v

theorem Memory.wf_reset : State.reset.mem.wf := Memory.wf_nil

/-- An address that is not listed reads as 0. -/
theorem Memory.read_eq_zero {m : Memory} {a : Nat} (h : ∀ c ∈ m, c.1 ≠ a) : m.read a = 0#32 := by
  induction m with
  | nil => rfl
  | cons c rest ih =>
    obtain ⟨k, w⟩ := c
    rw [Memory.read_cons, if_neg (h (k, w) (by simp)), ih fun c hc => h c (by simp [hc])]

end Sys2Proof.Machine
end

