-- ==== Sys2Proof/Laws/Ops.lean ====
section
/-! SUPPORT. One lemma per shared operation that says everything it can do; proofs cite these and do not unfold. -/
namespace Sys2Proof.Machine

/-! ### Words -/

theorem wrap32_toInt_of_range {z : Int} (h1 : -2147483648 ≤ z) (h2 : z ≤ 2147483647) :
    (wrap32 z).toInt = z := by
  unfold wrap32
  rw [BitVec.toInt_ofInt]
  apply Int.bmod_eq_of_le <;> omega

@[simp] theorem wrap32_toInt (v : Word) : wrap32 v.toInt = v := BitVec.ofInt_toInt

theorem word_toInt_range (v : Word) : -2147483648 ≤ v.toInt ∧ v.toInt ≤ 2147483647 := by
  have h1 := BitVec.le_toInt v
  have h2 := BitVec.toInt_lt (x := v)
  simp only [Nat.add_one_sub_one] at h1 h2
  omega

/-! ### Addresses and operands -/

theorem validAddr_iff (cfg : Config) (a : Int) : validAddr cfg a = true ↔ ValidAddr cfg a := by
  simp [validAddr, ValidAddr, and_assoc]

theorem validAddr_eq_false_iff (cfg : Config) (a : Int) : validAddr cfg a = false ↔ ¬ ValidAddr cfg a := by
  rw [← validAddr_iff, Bool.not_eq_true]

@[simp] theorem effectiveAddr_eq (s : State) (b : Reg) (o : Word) : effectiveAddr s b o = operandAddr s b o := rfl

/-- The one operand check that can fail is a memory operand's address. -/
theorem operandAddrOk_eq_false_iff (s : State) (op : Operand) :
    operandAddrOk s op = false ↔ BadAddress s op := by
  cases op with
  | mem b o => simp [operandAddrOk, BadAddress, validAddr_eq_false_iff]
  | reg r => simp [operandAddrOk, BadAddress]
  | imm v => simp [operandAddrOk, BadAddress]
  | invalid => simp [operandAddrOk, BadAddress]

/-- A source that has a value is no Invalid operand, passes the address check, and reads as that value. -/
theorem readOperand_of_value {s : State} {op : Operand} {v : Word} (h : operandValue s op = some v) :
    op ≠ .invalid ∧ operandAddrOk s op = true ∧ readOperand s op = v := by
  cases op with
  | reg r => simpa [operandValue, operandAddrOk, readOperand] using h
  | imm w => simpa [operandValue, operandAddrOk, readOperand] using h
  | mem b o =>
    simp only [operandValue] at h
    split at h
    · next hv =>
      exact ⟨by simp, by simpa [operandAddrOk] using (validAddr_iff _ _).mpr hv, by simpa [readOperand, State.load] using h⟩
    · simp at h
  | invalid => simp [operandValue] at h

/-- A destination that has a place is neither Invalid nor an immediate, passes the address check, and reads as
the place's value. -/
theorem readOperand_of_place {s : State} {op : Operand} {p : Place} (h : operandPlace s op = some p) :
    op ≠ .invalid ∧ isImmOperand op = false ∧ operandAddrOk s op = true ∧ readOperand s op = p.value s := by
  cases op with
  | reg r =>
    obtain rfl : Place.register r = p := by simpa [operandPlace] using h
    simp [operandAddrOk, readOperand, isImmOperand, Place.value]
  | imm w => simp [operandPlace] at h
  | mem b o =>
    simp only [operandPlace] at h
    split at h
    · next hv =>
      obtain rfl : Place.word _ = p := by simpa using h
      exact ⟨by simp, rfl, by simpa [operandAddrOk] using (validAddr_iff _ _).mpr hv, rfl⟩
    · simp at h
  | invalid => simp [operandPlace] at h

/-- What a write to a destination changes: its place, and nothing else. -/
theorem writeOperand_of_place {s : State} {op : Operand} {p : Place} (h : operandPlace s op = some p) (v : Word) :
    (∀ r, (writeOperand s op v).reg r = if p = .register r then v else s.reg r)
      ∧ ∀ a : Nat, (writeOperand s op v).mem.read a = if p = .word a then v else s.mem.read a := by
  cases op with
  | reg r =>
    obtain rfl : Place.register r = p := by simpa [operandPlace] using h
    simp [writeOperand, eq_comm]
  | imm w => simp [operandPlace] at h
  | mem b o =>
    simp only [operandPlace] at h
    split at h
    · obtain rfl : Place.word _ = p := by simpa using h
      simp [writeOperand, eq_comm]
    · simp at h
  | invalid => simp [operandPlace] at h

/-- The types a two-operand instruction refuses are those of checks 1 to 3 (40_alu.md R90). -/
theorem validate2_of_illTyped {s : State} {src dst : Operand} (h : IllTypedPair src dst) :
    validate2 src dst s = some .instructionError := by
  rcases h with rfl | rfl | ⟨v, rfl⟩ | ⟨⟨b, o, rfl⟩, b', o', rfl⟩
  · simp [validate2]
  · simp [validate2]
  · simp [validate2, isImmOperand]
  · simp [validate2, isImmOperand, isMemOperand]

/-- A well-typed pair with a bad address is refused by check 4 (40_alu.md R90). -/
theorem validate2_of_badAddress {s : State} {src dst : Operand} (ht : ¬ IllTypedPair src dst)
    (hb : BadAddress s src ∨ BadAddress s dst) : validate2 src dst s = some .memoryError := by
  rw [← operandAddrOk_eq_false_iff, ← operandAddrOk_eq_false_iff] at hb
  cases src <;> cases dst <;>
    simp_all [IllTypedPair, BothMemory, validate2, isImmOperand, isMemOperand, operandAddrOk]

/-- A source with a value and a destination with a place, not both memory, pass the four checks. -/
theorem validate2_of_ok {s : State} {src dst : Operand} {v : Word} {p : Place}
    (hs : operandValue s src = some v) (hd : operandPlace s dst = some p) (hm : ¬ BothMemory src dst) :
    validate2 src dst s = none := by
  obtain ⟨s1, s2, -⟩ := readOperand_of_value hs
  obtain ⟨d1, d2, d3, -⟩ := readOperand_of_place hd
  cases src <;> cases dst <;>
    simp_all [BothMemory, validate2, isImmOperand, isMemOperand]

/-! ### Stack and labels -/

theorem pushAllowed_iff (s : State) :
    pushAllowed s = true ↔ PushRoom s := by
  rw [pushAllowed, Bool.and_eq_true, validAddr_iff, decide_eq_true_iff, pushAddr]

theorem popAllowed_iff (s : State) :
    popAllowed s = true ↔ PopRoom s := by
  simp only [popAllowed, Bool.and_eq_true, validAddr_iff]

/-- FindLabel finds the first slot that holds exactly the label token (42_control_flow.md R120). -/
theorem findLabel_eq_some_iff (imem : List Line) (tok : Token) (t : Int) :
    findLabel imem tok = some t ↔ LabelAddr imem tok t := by
  unfold findLabel LabelAddr
  by_cases hd : tok.head? = some '.'
  · simp only [hd, beq_self_eq_true, if_true, true_and]
    constructor
    · split
      · next i hi =>
        rintro h
        obtain ⟨hlt, he, hj⟩ := List.findIdx?_eq_some_iff_getElem.mp hi
        refine ⟨i, ?_, fun j hji hs => ?_, by simpa using h.symm⟩
        · rw [List.getElem?_eq_getElem hlt]; simpa using he
        · obtain ⟨_, hs⟩ := List.getElem?_eq_some_iff.mp hs
          exact hj j hji (by simpa using hs)
      · simp
    · rintro ⟨i, hi, hj, rfl⟩
      obtain ⟨hlt, he⟩ := List.getElem?_eq_some_iff.mp hi
      have : imem.findIdx? (fun l => l == tok) = some i :=
        List.findIdx?_eq_some_iff_getElem.mpr
          ⟨hlt, by simpa using he, fun j hji hs => hj j hji
            (by rw [List.getElem?_eq_getElem (by omega)]; simpa using hs)⟩
      rw [this]
  · simp [hd]

/-- FindLabel finds nothing exactly when the marker is missing or no slot holds the token. -/
theorem findLabel_eq_none_iff (imem : List Line) (tok : Token) :
    findLabel imem tok = none ↔ NoLabel imem tok := by
  unfold findLabel NoLabel
  by_cases hd : tok.head? = some '.'
  · simp only [hd, beq_self_eq_true, if_true, ne_eq, not_true_eq_false, false_or]
    constructor
    · split
      · simp
      · next hn =>
        rintro - hm
        simpa using List.findIdx?_eq_none_iff.mp hn tok hm
    · intro hm
      have : imem.findIdx? (fun l => l == tok) = none :=
        List.findIdx?_eq_none_iff.mpr fun x hx => by
          simpa using fun he : x = tok => hm (he ▸ hx)
      rw [this]
  · simp [hd]

/-! ### The sequencer -/

/-- Everything that can follow a data or stack executor. -/
theorem afterData_cases (s : State) (r : ExecResult) :
    (∃ t, r = .success t ∧ afterData s r = .next t.advance) ∨
      ∃ c, r = .raised c ∧ afterData s r = .next (s.enterFault c) := by
  cases r with
  | success t => exact .inl ⟨t, rfl, rfl⟩
  | raised c => exact .inr ⟨c, rfl, rfl⟩

/-- Everything that can follow a jump executor. -/
theorem afterJump_cases (s : State) (r : ExecResult) :
    (∃ t, r = .success t ∧ t.reg .eip = s.reg .eip ∧ afterJump s r = .next t.advance) ∨
      (∃ t, r = .success t ∧ t.reg .eip ≠ s.reg .eip ∧ afterJump s r = .next t) ∨
      ∃ c, r = .raised c ∧ afterJump s r = .next (s.enterFault c) := by
  cases r with
  | success t =>
    by_cases h : t.reg .eip = s.reg .eip
    · exact .inl ⟨t, rfl, h, by simp [afterJump, h]⟩
    · exact .inr (.inl ⟨t, rfl, h, by simp [afterJump, h]⟩)
  | raised c => exact .inr (.inr ⟨c, rfl, rfl⟩)

/-- Everything that can follow CALL or RET. -/
theorem afterTransfer_cases (s : State) (r : ExecResult) :
    (∃ t, r = .success t ∧ afterTransfer s r = .next t) ∨
      ∃ c, r = .raised c ∧ afterTransfer s r = .next (s.enterFault c) := by
  cases r with
  | success t => exact .inl ⟨t, rfl, rfl⟩
  | raised c => exact .inr ⟨c, rfl, rfl⟩

/-- Everything a step that answers a next state has done (43_sequencer.md R140). -/
theorem step_next_cases {s t : State} (h : step s = .next t) :
    s.status = .running ∧ s.programOk = true ∧
      ((s.fetch = .outOfRange ∧ t = s.halt .outOfRange) ∨
        ∃ l i, s.fetch = .line l ∧ decode s.cfg l = .ok i ∧ exec i s = .next t) := by
  unfold step at h
  split at h
  · next hr =>
    refine ⟨hr, ?_⟩
    unfold stepRunning at h
    split at h
    · next hp =>
      refine ⟨hp, ?_⟩
      split at h
      · next hf => exact .inl ⟨hf, by simpa using h.symm⟩
      · simp at h
      · next l hf =>
        unfold stepLine at h
        split at h
        · next i hd => exact .inr ⟨l, i, hf, hd, h⟩
        · simp at h
        · simp at h
    · simp at h
  · simp at h
  · simp at h

end Sys2Proof.Machine
end

