-- ==== Sys2Proof/Laws/Exec.lean ====
section
/-! SUPPORT. One lemma per executor: what it has checked and what state it leaves when it returns SUCCESS. -/
namespace Sys2Proof.Machine

theorem runMovl_success {src dst : Operand} {s t : State} (h : runMovl src dst s = .success t) :
    validate2 src dst s = none ∧ t = writeOperand s dst (readOperand s src) := by
  unfold runMovl at h
  split at h
  · simp at h
  · next hv => exact ⟨hv, by simpa using h.symm⟩

theorem runAddl_success {src dst : Operand} {s t : State} (h : runAddl src dst s = .success t) :
    validate2 src dst s = none ∧
      t = writeOperand s dst (wrap32 ((readOperand s dst).toInt + (readOperand s src).toInt)) := by
  unfold runAddl at h
  split at h
  · simp at h
  · next hv => exact ⟨hv, by simpa using h.symm⟩

theorem runSubl_success {src dst : Operand} {s t : State} (h : runSubl src dst s = .success t) :
    validate2 src dst s = none ∧
      t = writeOperand s dst (wrap32 ((readOperand s dst).toInt - (readOperand s src).toInt)) := by
  unfold runSubl at h
  split at h
  · simp at h
  · next hv => exact ⟨hv, by simpa using h.symm⟩

theorem runCmpl_success {src dst : Operand} {s t : State} (h : runCmpl src dst s = .success t) :
    validate2 src dst s = none ∧
      t = { s with flag := compareFlag (readOperand s dst) (readOperand s src) } := by
  unfold runCmpl at h
  split at h
  · simp at h
  · next hv => exact ⟨hv, by simpa using h.symm⟩

theorem runPushl_success {src : Operand} {s t : State} (h : runPushl src s = .success t) :
    src ≠ .invalid ∧ operandAddrOk s src = true ∧ PushRoom s ∧ t = pushWord s (readOperand s src) := by
  unfold runPushl at h
  split at h
  · simp at h
  · next hi =>
    split at h
    · simp at h
    · next ha =>
      split at h
      · simp at h
      · next hp => exact ⟨hi, by simpa using ha, (pushAllowed_iff s).mp (by simpa using hp), by simpa using h.symm⟩

theorem runPopl_success {dst : Operand} {s t : State} (h : runPopl dst s = .success t) :
    PopRoom s ∧
      ((∃ r, dst = .reg r ∧ t = raiseEsp (s.setReg r (topOfStack s))) ∨
       ∃ b o, dst = .mem b o ∧ ValidAddr s.cfg (operandAddr s b o) ∧
         t = raiseEsp (s.store (operandAddr s b o) (topOfStack s))) := by
  cases dst with
  | invalid => simp [runPopl] at h
  | imm v => simp [runPopl] at h
  | reg r =>
    simp only [runPopl] at h
    split at h
    · simp at h
    · next hp =>
      exact ⟨(popAllowed_iff s).mp (by simpa using hp), .inl ⟨r, rfl, by simpa using h.symm⟩⟩
  | mem b o =>
    simp only [runPopl] at h
    split at h
    · simp at h
    · next hp =>
      split at h
      · simp at h
      · next ha =>
        refine ⟨(popAllowed_iff s).mp (by simpa using hp), .inr ⟨b, o, rfl, ?_, by simpa using h.symm⟩⟩
        exact (validAddr_iff _ _).mp (by simpa [operandAddrOk] using ha)

theorem runJump_success {taken : Bool} {tok : Token} {s t : State} (h : runJump taken tok s = .success t) :
    ∃ a, LabelAddr s.imem tok a ∧ t = if taken then s.setReg .eip (wrap32 a) else s := by
  unfold runJump at h
  split at h
  · simp at h
  · next a ha => exact ⟨a, (findLabel_eq_some_iff _ _ _).mp ha, by simpa using h.symm⟩

theorem runCall_success {tok : Token} {s t : State} (h : runCall tok s = .success t) :
    ∃ a, LabelAddr s.imem tok a ∧ PushRoom s ∧
      t = (pushWord s (wrap32 (s.pc + 4))).setReg .eip (wrap32 a) := by
  unfold runCall at h
  split at h
  · simp at h
  · next a ha =>
    split at h
    · simp at h
    · next hp =>
      exact ⟨a, (findLabel_eq_some_iff _ _ _).mp ha, (pushAllowed_iff s).mp (by simpa using hp),
        by simpa using h.symm⟩

theorem runRet_success {s t : State} (h : runRet s = .success t) :
    ValidAddr s.cfg (s.reg .esp).toInt ∧ returnAddrOk s (topOfStack s).toInt = true ∧
      t = raiseEsp (s.setReg .eip (topOfStack s)) := by
  unfold runRet at h
  split at h
  · simp at h
  · next ha =>
    split at h
    · simp at h
    · next hr =>
      exact ⟨(validAddr_iff _ _).mp (by simpa using ha), by simpa using hr, by simpa using h.symm⟩

theorem returnAddrOk_iff (s : State) (r : Int) :
    returnAddrOk s r = true ↔ 0 ≤ r ∧ r < (s.imem.length : Int) * 4 ∧ r % 4 = 0 := by
  rw [returnAddrOk, Bool.and_eq_true, Bool.and_eq_true, decide_eq_true_iff, decide_eq_true_iff,
    decide_eq_true_iff, State.instrCount, and_assoc]

/-! ### What follows an executor -/

theorem afterData_next {s t : State} {r : ExecResult} (h : afterData s r = .next t) :
    (∃ u, r = .success u ∧ t = u.advance) ∨ ∃ c, r = .raised c ∧ t = s.enterFault c := by
  rcases afterData_cases s r with ⟨u, rfl, e⟩ | ⟨c, rfl, e⟩
  · exact .inl ⟨u, rfl, by rw [e] at h; simpa using h.symm⟩
  · exact .inr ⟨c, rfl, by rw [e] at h; simpa using h.symm⟩

theorem afterJump_next {s t : State} {r : ExecResult} (h : afterJump s r = .next t) :
    (∃ u, r = .success u ∧ (t = u.advance ∨ t = u)) ∨ ∃ c, r = .raised c ∧ t = s.enterFault c := by
  rcases afterJump_cases s r with ⟨u, rfl, -, e⟩ | ⟨u, rfl, -, e⟩ | ⟨c, rfl, e⟩
  · exact .inl ⟨u, rfl, .inl (by rw [e] at h; simpa using h.symm)⟩
  · exact .inl ⟨u, rfl, .inr (by rw [e] at h; simpa using h.symm)⟩
  · exact .inr ⟨c, rfl, by rw [e] at h; simpa using h.symm⟩

theorem afterTransfer_next {s t : State} {r : ExecResult} (h : afterTransfer s r = .next t) :
    r = .success t ∨ ∃ c, r = .raised c ∧ t = s.enterFault c := by
  rcases afterTransfer_cases s r with ⟨u, rfl, e⟩ | ⟨c, rfl, e⟩
  · exact .inl (by rw [e] at h; simp at h; rw [h])
  · exact .inr ⟨c, rfl, by rw [e] at h; simpa using h.symm⟩

/-- Everything a jump line that answers a next state can have done: an advance, a new EIP, or a fault. -/
theorem jump_next {taken : Bool} {tok : Token} {s t : State} (h : afterJump s (runJump taken tok s) = .next t) :
    (∃ v, t = s.setReg .eip v) ∨ ∃ c, t = s.enterFault c := by
  rcases afterJump_next h with ⟨u, hu, ht⟩ | ⟨c, -, rfl⟩
  · obtain ⟨a, -, rfl⟩ := runJump_success hu
    left
    rcases ht with rfl | rfl <;> cases taken
    · exact ⟨_, rfl⟩
    · exact ⟨_, rfl⟩
    · exact ⟨s.reg .eip, rfl⟩
    · exact ⟨_, rfl⟩
  · exact .inr ⟨c, rfl⟩

/-- Everything an instruction can do, once: the state it leaves is a fault, a halt, an advance of one written place
or flag, a push, a pop, a new EIP, a call or a return. -/
theorem exec_next_cases {i : Instr} {s t : State} (h : exec i s = .next t) :
    (∃ c, t = s.enterFault c) ∨
    (i = .endMarker ∧ t = s.halt .endMarker) ∨
    (∃ v, t = s.setReg .eip v) ∨
    (∃ src dst v, (i = .movl src dst ∨ i = .addl src dst ∨ i = .subl src dst) ∧ validate2 src dst s = none ∧
      t = (writeOperand s dst v).advance) ∨
    (∃ src dst f, i = .cmpl src dst ∧ t = ({ s with flag := f } : State).advance) ∨
    (∃ src v, i = .pushl src ∧ PushRoom s ∧ t = (pushWord s v).advance) ∨
    (∃ r, i = .popl (.reg r) ∧ PopRoom s ∧ t = (raiseEsp (s.setReg r (topOfStack s))).advance) ∨
    (∃ b o, i = .popl (.mem b o) ∧ PopRoom s ∧ ValidAddr s.cfg (operandAddr s b o) ∧
      t = (raiseEsp (s.store (operandAddr s b o) (topOfStack s))).advance) ∨
    (∃ tok a, i = .call tok ∧ PushRoom s ∧ t = (pushWord s (wrap32 (s.pc + 4))).setReg .eip a) ∨
    (i = .ret ∧ ValidAddr s.cfg (s.reg .esp).toInt ∧ t = raiseEsp (s.setReg .eip (topOfStack s))) := by
  have jump : ∀ {b tok}, afterJump s (runJump b tok s) = .next t →
      (∃ v, t = s.setReg .eip v) ∨ ∃ c, t = s.enterFault c := jump_next
  cases i with
  | movl src dst =>
    rcases afterData_next h with ⟨u, hu, rfl⟩ | ⟨c, -, rfl⟩
    · obtain ⟨hv, rfl⟩ := runMovl_success hu
      exact .inr <| .inr <| .inr <| .inl ⟨src, dst, _, .inl rfl, hv, rfl⟩
    · exact .inl ⟨c, rfl⟩
  | addl src dst =>
    rcases afterData_next h with ⟨u, hu, rfl⟩ | ⟨c, -, rfl⟩
    · obtain ⟨hv, rfl⟩ := runAddl_success hu
      exact .inr <| .inr <| .inr <| .inl ⟨src, dst, _, .inr (.inl rfl), hv, rfl⟩
    · exact .inl ⟨c, rfl⟩
  | subl src dst =>
    rcases afterData_next h with ⟨u, hu, rfl⟩ | ⟨c, -, rfl⟩
    · obtain ⟨hv, rfl⟩ := runSubl_success hu
      exact .inr <| .inr <| .inr <| .inl ⟨src, dst, _, .inr (.inr rfl), hv, rfl⟩
    · exact .inl ⟨c, rfl⟩
  | cmpl src dst =>
    rcases afterData_next h with ⟨u, hu, rfl⟩ | ⟨c, -, rfl⟩
    · obtain ⟨-, rfl⟩ := runCmpl_success hu
      exact .inr <| .inr <| .inr <| .inr <| .inl ⟨src, dst, _, rfl, rfl⟩
    · exact .inl ⟨c, rfl⟩
  | pushl src =>
    rcases afterData_next h with ⟨u, hu, rfl⟩ | ⟨c, -, rfl⟩
    · obtain ⟨-, -, hp, rfl⟩ := runPushl_success hu
      exact .inr <| .inr <| .inr <| .inr <| .inr <| .inl ⟨src, _, rfl, hp, rfl⟩
    · exact .inl ⟨c, rfl⟩
  | popl dst =>
    rcases afterData_next h with ⟨u, hu, rfl⟩ | ⟨c, -, rfl⟩
    · rcases runPopl_success hu with ⟨hp, ⟨r, rfl, rfl⟩ | ⟨b, o, rfl, ha, rfl⟩⟩
      · exact .inr <| .inr <| .inr <| .inr <| .inr <| .inr <| .inl ⟨r, rfl, hp, rfl⟩
      · exact .inr <| .inr <| .inr <| .inr <| .inr <| .inr <| .inr <| .inl ⟨b, o, rfl, hp, ha, rfl⟩
    · exact .inl ⟨c, rfl⟩
  | jmp tok => exact (jump h).elim (fun h => .inr (.inr (.inl h))) .inl
  | je tok => exact (jump h).elim (fun h => .inr (.inr (.inl h))) .inl
  | jne tok => exact (jump h).elim (fun h => .inr (.inr (.inl h))) .inl
  | jl tok => exact (jump h).elim (fun h => .inr (.inr (.inl h))) .inl
  | jg tok => exact (jump h).elim (fun h => .inr (.inr (.inl h))) .inl
  | call tok =>
    rcases afterTransfer_next h with hu | ⟨c, -, rfl⟩
    · obtain ⟨a, -, hp, rfl⟩ := runCall_success hu
      exact .inr <| .inr <| .inr <| .inr <| .inr <| .inr <| .inr <| .inr <| .inl ⟨tok, _, rfl, hp, rfl⟩
    · exact .inl ⟨c, rfl⟩
  | ret =>
    rcases afterTransfer_next h with hu | ⟨c, -, rfl⟩
    · obtain ⟨ha, -, rfl⟩ := runRet_success hu
      exact .inr <| .inr <| .inr <| .inr <| .inr <| .inr <| .inr <| .inr <| .inr ⟨rfl, ha, rfl⟩
    · exact .inl ⟨c, rfl⟩
  | endMarker =>
    obtain rfl : s.halt .endMarker = t := Host.Outcome.next.inj h
    exact .inr (.inl ⟨rfl, rfl⟩)
  | label l =>
    obtain rfl : s.advance = t := Host.Outcome.next.inj h
    exact .inr (.inr (.inl ⟨_, rfl⟩))
  | unrecognised l =>
    obtain rfl : s.advance = t := Host.Outcome.next.inj h
    exact .inr (.inr (.inl ⟨_, rfl⟩))

end Sys2Proof.Machine
end

