-- ==== Sys2Proof/Laws/PerInstr.lean ====
section
/-! SUPPORT. A statement made per instruction: the encoder writes a well-formed line (30_encoding.md R61). -/
namespace Sys2Proof

theorem lineOk_encodeTwo (m : Mnemonic) (src dst : Operand) : lineOk (encodeTwo m src dst) = true := by
  have hd := lineOk_of_token dst.tokenOk_token
  have hs := lineOk_cons_token src.tokenOk_token src.token_ne_nil hd dst.token_ne_nil
  simpa [encodeTwo] using lineOk_cons_token m.tokenOk_text m.text_ne_nil hs (by simp)

theorem lineOk_encodeOne (m : Mnemonic) (op : Operand) : lineOk (encodeOne m op) = true :=
  lineOk_cons_token m.tokenOk_text m.text_ne_nil (lineOk_of_token op.tokenOk_token) op.token_ne_nil

theorem lineOk_encodeLabelled (m : Mnemonic) {t : Token} (h : tokenOk t = true) :
    lineOk (encodeLabelled m t) = true := by
  unfold encodeLabelled
  split
  · exact lineOk_of_token m.tokenOk_text
  · next hn => exact lineOk_cons_token m.tokenOk_text m.text_ne_nil (lineOk_of_token h) (by simpa using hn)

theorem Config.endMarker_tokenOk {cfg : Config} (h : cfg.wf = true) : tokenOk cfg.endMarker = true := by
  simp only [Config.wf, Bool.and_eq_true] at h
  exact h.1.1.2

end Sys2Proof

namespace Sys2Proof.Laws

/-- The line of a well-formed instruction is well formed, under every well-formed parameter set. -/
def EncodedLine.Statement (i : Instr) : Prop :=
  ∀ cfg : Config, cfg.wf = true → i.wf cfg = true → lineOk (encode cfg i) = true

theorem EncodedLine.movl (src dst : Operand) : EncodedLine.Statement (.movl src dst) :=
  fun _ _ _ => lineOk_encodeTwo .movl src dst
theorem EncodedLine.addl (src dst : Operand) : EncodedLine.Statement (.addl src dst) :=
  fun _ _ _ => lineOk_encodeTwo .addl src dst
theorem EncodedLine.subl (src dst : Operand) : EncodedLine.Statement (.subl src dst) :=
  fun _ _ _ => lineOk_encodeTwo .subl src dst
theorem EncodedLine.cmpl (src dst : Operand) : EncodedLine.Statement (.cmpl src dst) :=
  fun _ _ _ => lineOk_encodeTwo .cmpl src dst
theorem EncodedLine.pushl (src : Operand) : EncodedLine.Statement (.pushl src) :=
  fun _ _ _ => lineOk_encodeOne .pushl src
theorem EncodedLine.popl (dst : Operand) : EncodedLine.Statement (.popl dst) :=
  fun _ _ _ => lineOk_encodeOne .popl dst
theorem EncodedLine.jmp (target : Token) : EncodedLine.Statement (.jmp target) :=
  fun _ _ h => lineOk_encodeLabelled .jmp h
theorem EncodedLine.je (target : Token) : EncodedLine.Statement (.je target) :=
  fun _ _ h => lineOk_encodeLabelled .je h
theorem EncodedLine.jne (target : Token) : EncodedLine.Statement (.jne target) :=
  fun _ _ h => lineOk_encodeLabelled .jne h
theorem EncodedLine.jl (target : Token) : EncodedLine.Statement (.jl target) :=
  fun _ _ h => lineOk_encodeLabelled .jl h
theorem EncodedLine.jg (target : Token) : EncodedLine.Statement (.jg target) :=
  fun _ _ h => lineOk_encodeLabelled .jg h
theorem EncodedLine.call (target : Token) : EncodedLine.Statement (.call target) :=
  fun _ _ h => lineOk_encodeLabelled .call h
theorem EncodedLine.ret : EncodedLine.Statement .ret :=
  fun _ _ _ => lineOk_of_token Mnemonic.ret.tokenOk_text
theorem EncodedLine.endMarker : EncodedLine.Statement .endMarker :=
  fun _ h _ => lineOk_of_token (Config.endMarker_tokenOk h)
theorem EncodedLine.label (text : Line) : EncodedLine.Statement (.label text) := by
  intro cfg _ h
  simp only [Instr.wf, labelTextOk, Bool.and_eq_true] at h
  exact lineOk_of_token h.1
theorem EncodedLine.unrecognised (text : Line) : EncodedLine.Statement (.unrecognised text) := by
  intro cfg _ h
  simp only [Instr.wf, unrecognisedTextOk, Bool.and_eq_true] at h
  exact h.1.1.1

end Sys2Proof.Laws
end

