-- ==== Sys2Proof/Tests/Slice0.lean ====
section
/-! SUPPORT. The model's own tests: ill-formed terms that WellFormed refuses, written-out lines that decode, small
steps with the results of 95_test_vectors.md, and for every statement with hypotheses a case that meets them. -/
namespace Sys2Proof.Tests
open Sys2Proof Sys2Proof.Machine

/-! ### Helpers -/

/-- A program written as strings. -/
def text (program : List String) : List Line := program.map String.toList

/-- The reset state of 95_test_vectors.md with a program loaded. -/
def demo (program : List String) : State := State.reset.loadProgram (text program)

/-- A register set to a number. -/
def put (s : State) (r : Reg) (v : Int) : State := s.setReg r (wrap32 v)

/-- A word of memory set to a number. -/
def poke (s : State) (a v : Int) : State := s.store a (wrap32 v)

/-- One step answers a next state with the property. -/
def goes (s : State) (p : State → Bool) : Bool :=
  match step s with
  | .next t => p t
  | .fault _ => false
  | .refused _ => false

/-- One instruction answers a next state with the property. -/
def does (i : Instr) (s : State) (p : State → Bool) : Bool :=
  match exec i s with
  | .next t => p t
  | .fault _ => false
  | .refused _ => false

/-- The state has faulted with the code and nothing else has changed. -/
def faultedFrom (s : State) (c : ErrorCode) (t : State) : Bool := t == { s with status := .faulted c }

/-- The line decodes under the default parameters to the instruction. -/
def reads (line : String) (i : Instr) : Bool :=
  match decode Config.default line.toList with
  | .ok j => j == i
  | .error _ => false

/-- The default parameters without SUBL (90_conflicts.md C1: the document's own machine). -/
def noSubl : Config := { Config.default with sublImplemented := false }

/-! ### WellFormed refuses an ill-formed term for each of its checks -/

theorem test_wf_default : Config.default.wf = true := by decide
theorem test_wf_refuses_small_memory : (Config.ofMemWords 1).wf = false := by decide
theorem test_wf_refuses_large_memory : ({ Config.default with memWords := 2 ^ 29 } : Config).wf = false := by decide
theorem test_wf_refuses_stack_in_guard : ({ Config.default with stackInit := 0#32 } : Config).wf = false := by decide
theorem test_wf_refuses_stack_past_top : ({ Config.default with stackInit := 4096#32 } : Config).wf = false := by
  decide
theorem test_wf_refuses_unaligned_stack : ({ Config.default with stackInit := 4090#32 } : Config).wf = false := by
  decide
theorem test_wf_refuses_spaced_marker : ({ Config.default with endMarker := "E D".toList } : Config).wf = false := by
  decide
theorem test_wf_refuses_dotted_marker : ({ Config.default with endMarker := ".END".toList } : Config).wf = false := by
  decide
theorem test_wf_refuses_mnemonic_marker : ({ Config.default with endMarker := "RET".toList } : Config).wf = false := by
  decide
/-- Log entry 15. -/
theorem test_wf_refuses_subl_marker : ({ noSubl with endMarker := "SUBL".toList } : Config).wf = false := by decide
theorem test_wf_refuses_target_with_space :
    (Instr.jmp ".a b".toList).wf Config.default = false ∧ (Instr.je " ".toList).wf Config.default = false
      ∧ (Instr.jne ".a ".toList).wf Config.default = false ∧ (Instr.jl [Char.ofNat 9]).wf Config.default = false
      ∧ (Instr.jg [Char.ofNat 127]).wf Config.default = false
      ∧ (Instr.call ".f x".toList).wf Config.default = false := by decide
theorem test_wf_refuses_label_text :
    (Instr.label "a".toList).wf Config.default = false ∧ (Instr.label ".a b".toList).wf Config.default = false
      ∧ (Instr.label []).wf Config.default = false := by decide
theorem test_wf_refuses_unrecognised_text :
    (Instr.unrecognised " NOP".toList).wf Config.default = false
      ∧ (Instr.unrecognised "END".toList).wf Config.default = false
      ∧ (Instr.unrecognised ".a".toList).wf Config.default = false
      ∧ (Instr.unrecognised "MOVL x".toList).wf Config.default = false := by decide
theorem test_wf_refuses_absent_subl : (Instr.subl .invalid .invalid).wf noSubl = false := by decide
theorem test_line_checks :
    lineOk " A".toList = false ∧ lineOk "A ".toList = false ∧ lineOk "A  B".toList = false
      ∧ lineOk ['A', Char.ofNat 10] = false ∧ lineOk [] = true := by decide

/-! ### Decoding (30_encoding.md; the lines are written out from R64 and R72) -/

theorem test_decode_two_operands :
    reads "MOVL %EAX -4(%EBP)" (.movl (.reg .eax) (.mem .ebp (-4#32))) = true
      ∧ reads "ADDL $-1 %ECX" (.addl (.imm (-1#32)) (.reg .ecx)) = true
      ∧ reads "SUBL %EDX %EAX" (.subl (.reg .edx) (.reg .eax)) = true
      ∧ reads "CMPL (%ESP) %EIP" (.cmpl (.mem .esp 0#32) (.reg .eip)) = true := by decide
theorem test_decode_stack :
    reads "PUSHL $2147483647" (.pushl (.imm 0x7FFFFFFF#32)) = true
      ∧ reads "POPL 8(%EBP)" (.popl (.mem .ebp 8#32)) = true ∧ reads "RET" .ret = true
      ∧ reads "POPL" (.popl .invalid) = true := by decide
theorem test_decode_control :
    reads "JMP .top" (.jmp ".top".toList) = true ∧ reads "JE .x" (.je ".x".toList) = true
      ∧ reads "JNE .x" (.jne ".x".toList) = true ∧ reads "JL .x" (.jl ".x".toList) = true
      ∧ reads "JG x" (.jg "x".toList) = true ∧ reads "CALL" (.call []) = true := by decide
theorem test_decode_other_lines :
    reads "END" .endMarker = true ∧ reads ".a" (.label ".a".toList) = true
      ∧ reads ".a b" (.unrecognised ".a b".toList) = true ∧ reads "" (.unrecognised []) = true
      ∧ reads "movl %EAX %EAX" (.unrecognised "movl %EAX %EAX".toList) = true := by decide
/-- 95_test_vectors.md B1: a row for each way a token is Invalid, and the ends of the number range. -/
theorem test_resolve :
    resolve "$-2147483648".toList = .imm 0x80000000#32 ∧ resolve "$2147483648".toList = .invalid
      ∧ resolve "$007".toList = .imm 7#32 ∧ resolve "$+5".toList = .invalid ∧ resolve "$".toList = .invalid
      ∧ resolve "%eax".toList = .invalid ∧ resolve "%EAX,".toList = .invalid ∧ resolve "(EAX)".toList = .invalid
      ∧ resolve "(%EAX)x".toList = .invalid ∧ resolve "+4(%EAX)".toList = .invalid
      ∧ resolve "6(%EAX)".toList = .mem .eax 6#32 ∧ resolve [] = .invalid := by decide
theorem test_decode_refuses :
    decode Config.default "RET %EAX".toList = .error .surplusTokens
      ∧ decode Config.default "MOVL $1 %EAX %EDX".toList = .error .surplusTokens
      ∧ decode Config.default "A  B".toList = .error .illFormedLine
      ∧ decode noSubl "SUBL $1 %ECX".toList = .ok (.unrecognised "SUBL $1 %ECX".toList) := ⟨rfl, rfl, rfl, rfl⟩
/-- The words of spec/opcode_table.json, each with its own length. -/
theorem test_table_words :
    decodeTableWord 32 0x4D4F564C = some (.movl .invalid .invalid)
      ∧ decodeTableWord 32 0x4144444C = some (.addl .invalid .invalid)
      ∧ decodeTableWord 32 0x5355424C = some (.subl .invalid .invalid)
      ∧ decodeTableWord 32 0x434D504C = some (.cmpl .invalid .invalid)
      ∧ decodeTableWord 40 0x505553484C = some (.pushl .invalid)
      ∧ decodeTableWord 32 0x504F504C = some (.popl .invalid)
      ∧ decodeTableWord 24 0x4A4D50 = some (.jmp []) ∧ decodeTableWord 16 0x4A45 = some (.je [])
      ∧ decodeTableWord 24 0x4A4E45 = some (.jne []) ∧ decodeTableWord 16 0x4A4C = some (.jl [])
      ∧ decodeTableWord 16 0x4A47 = some (.jg []) ∧ decodeTableWord 32 0x43414C4C = some (.call [])
      ∧ decodeTableWord 24 0x524554 = some .ret ∧ decodeTableWord 24 0x454E44 = some .endMarker
      ∧ decodeTableWord 8 0x2E = some (.label ['.']) ∧ decodeTableWord 8 0 = some (.unrecognised []) := by decide
theorem test_fetch_word_runs :
    goes (State.reset.withFetchWord 24 0x454E44) (·.status == .halted .endMarker) = true
      ∧ goes (State.reset.withFetchWord 32 0x4D4F564C) (·.status == .faulted .instructionError) = true
      ∧ goes (State.reset.withFetchWord 16 0x4A45) (·.status == .faulted .pcError) = true := by decide

/-! ### One step each (95_test_vectors.md) -/

/-- B3. -/
theorem test_movl : goes (poke (demo ["MOVL -4(%EBP) %ECX"]) 4088 7) (fun t => t.reg .ecx == 7#32 && t.pc == 4) = true := by
  decide
/-- B3: a write to EIP is followed by the advance. -/
theorem test_movl_eip : goes (demo ["MOVL $8 %EIP", "", "", ""]) (·.pc == 12) = true := by decide
/-- B4: overflow wraps. -/
theorem test_addl_wraps :
    goes (put (demo ["ADDL $1 %EAX"]) .eax 2147483647) (fun t => (t.reg .eax).toInt == -2147483648) = true := by decide
/-- B4: a memory destination. -/
theorem test_addl_memory :
    goes (poke (demo ["ADDL $10 -4(%EBP)"]) 4088 6) (fun t => t.mem.read 4088 == 16#32) = true := by decide
/-- B5: destination minus source. -/
theorem test_subl :
    goes (put (put (demo ["SUBL %EDX %EAX"]) .eax 5) .edx 7) (fun t => (t.reg .eax).toInt == -2) = true := by decide
/-- B5: without SUBL_IMPLEMENTED the line is skipped. -/
theorem test_subl_absent :
    goes (put { demo ["SUBL $1 %ECX"] with cfg := noSubl } .ecx 3) (fun t => t.reg .ecx == 3#32 && t.pc == 4) = true := by
  decide
/-- B6: the extremes compare without a wrap. -/
theorem test_cmpl_extremes :
    goes (put (demo ["CMPL $2147483647 %EAX"]) .eax (-2147483648)) (·.flag == .less) = true := by decide
/-- B6: the flag is that of the destination against the source. -/
theorem test_cmpl_order :
    goes (put (put (demo ["CMPL %EAX %EDX"]) .eax 3) .edx 5) (·.flag == .greater) = true := by decide
/-- B7: the value is read with the old ESP. -/
theorem test_pushl_esp :
    goes (demo ["PUSHL %ESP"]) (fun t => t.mem.read 4088 == 4092#32 && t.reg .esp == 4088#32) = true := by decide
/-- B7: the guard word. -/
theorem test_pushl_guard :
    goes (put (demo ["PUSHL $1"]) .esp 4) (faultedFrom (put (demo ["PUSHL $1"]) .esp 4) .memoryError) = true := by decide
/-- B8: the popped word plus 4. -/
theorem test_popl_esp :
    goes (poke (put (demo ["POPL %ESP"]) .esp 4088) 4088 100) (fun t => t.reg .esp == 104#32) = true := by decide
/-- B8: the destination's address uses the old ESP. -/
theorem test_popl_memory :
    goes (poke (put (demo ["POPL 4(%ESP)"]) .esp 4084) 4084 1)
      (fun t => t.mem.read 4088 == 1#32 && t.reg .esp == 4088#32) = true := by decide
/-- B10: taken and not taken, at EIP = 8 with `.top` at 4. -/
theorem test_conditions :
    does (.jmp ".top".toList) (put (demo [".top", "", "", ""]) .eip 8) (·.pc == 4) = true
      ∧ does (.je ".top".toList) (put (demo [".top", "", "", ""]) .eip 8) (·.pc == 4) = true
      ∧ does (.jne ".top".toList) (put (demo [".top", "", "", ""]) .eip 8) (·.pc == 12) = true
      ∧ does (.jl ".top".toList) { put (demo [".top", "", "", ""]) .eip 8 with flag := .less } (·.pc == 4) = true
      ∧ does (.jg ".top".toList) { put (demo [".top", "", "", ""]) .eip 8 with flag := .less } (·.pc == 12) = true := by
  decide
/-- B10: the label is looked at before the condition; a jump to its own address falls through. -/
theorem test_jump_corners :
    goes (put (demo [".s", "JL .nowhere"]) .eip 4) (fun t => t.status == .faulted .pcError && t.pc == 4) = true
      ∧ goes (put (demo [".s", "JMP .s", ""]) .eip 4) (·.pc == 8) = true := by decide
/-- B11: CALL at EIP = 8 to a label in the last slot. -/
theorem test_call :
    goes (put (demo ["", "", "CALL .f", ".f"]) .eip 8)
      (fun t => t.mem.read 4088 == 12#32 && t.reg .esp == 4088#32 && t.pc == 16) = true := by decide
/-- B11: the label is looked at before the stack. -/
theorem test_call_order :
    goes (put (demo ["CALL .g"]) .esp 4) (·.status == .faulted .pcError) = true := by decide
/-- B11: the last slot is a return address. -/
theorem test_ret :
    goes (poke (put (demo ["RET", "", ""]) .esp 4084) 4084 8) (fun t => t.pc == 8 && t.reg .esp == 4088#32) = true := by
  decide
/-- B11: INSTR_COUNT*4 is outside; D16: ESP may end one word past the top. -/
theorem test_ret_bounds :
    goes (poke (put (demo ["RET", "", ""]) .esp 4084) 4084 12) (·.status == .faulted .pcError) = true
      ∧ goes (poke (demo ["RET", ""]) 4092 4) (fun t => t.reg .esp == 4096#32) = true := by decide
/-- A10 and R142, R146, R147. -/
theorem test_other_lines :
    goes (put (demo ["END", "END"]) .eip 4) (fun t => t.status == .halted .endMarker && t.pc == 4) = true
      ∧ goes (demo [".a"]) (·.pc == 4) = true ∧ goes (demo ["NOP x y z"]) (·.pc == 4) = true
      ∧ goes (put (demo ["MOVL $1 %EAX"]) .eip 4) (fun t => t.status == .halted .outOfRange && t.pc == 4) = true := by
  decide
/-- B2: check 3 comes before check 4; the exact sum is checked, not the wrapped one. -/
theorem test_validation :
    goes (demo ["MOVL (%EAX) 2(%EDX)"]) (faultedFrom (demo ["MOVL (%EAX) 2(%EDX)"]) .instructionError) = true
      ∧ goes (put (demo ["MOVL $1 -2147483648(%EAX)"]) .eax (-2147483648)) (·.status == .faulted .memoryError) = true := by
  decide
/-- R150: an operation of the host does not advance EIP; INIT after a fault starts afresh. -/
theorem test_host :
    (match hostExec (.movl "$5".toList "%EAX".toList) (demo []) with
      | .ok (code, t) => code == .success && t.reg .eax == 5#32 && t.pc == 0
      | .error _ => false) = true
      ∧ (State.init { put (demo ["A"]) .eax 9 with status := .faulted .pcError }) = demo ["A"] := by decide

/-! ### Every statement's hypotheses are met somewhere: decoding -/

theorem witness_encoded_instruction :
    Config.default.wf = true ∧ (Instr.movl (.mem .esp 0x80000000#32) .invalid).wf Config.default = true
      ∧ (Instr.jg []).wf Config.default = true ∧ (Instr.label ".".toList).wf Config.default = true
      ∧ (Instr.unrecognised "SUBL".toList).wf noSubl = true ∧ noSubl.wf = true := by decide
theorem witness_decoded_instruction : decode Config.default "JMP .a".toList = .ok (.jmp ".a".toList) := rfl
theorem witness_rejected_lines :
    decode Config.default "RET x".toList = .error .surplusTokens ∧ decode Config.default " ".toList = .error .illFormedLine :=
  ⟨rfl, rfl⟩
/-- One line for each condition of R61 that it breaks alone, and the line that breaks none and has too many tokens. -/
theorem witness_line_conditions :
    ¬ LineWellFormed ['A', Char.ofNat 0x1F] ∧ ¬ LineWellFormed ['A', Char.ofNat 0x7F] ∧ ¬ LineWellFormed " A".toList
      ∧ ¬ LineWellFormed "A ".toList ∧ ¬ LineWellFormed "A  B".toList ∧ LineWellFormed "RET ~".toList
      ∧ "RET ~".toList ≠ Config.default.endMarker ∧ tokenise "RET ~".toList = ["RET".toList, "~".toList]
      ∧ ("RET".toList, 0) ∈ opcodeFormats ∧ 0 < ["~".toList].length := by
  simp only [← lineOk_iff]
  decide
theorem witness_tokens :
    (∀ u ∈ [[], "A,".toList], ' ' ∉ u) ∧ (([] : Token) ≠ [] ∨ ["A,".toList] ≠ []) := by decide
theorem witness_numerals :
    NumeralOf "2147483647".toList 0x7FFFFFFF#32 ∧ NumeralOf "-2147483648".toList 0x80000000#32
      ∧ NumeralOf "-0".toList 0#32 := by
  refine ⟨?_, ?_, ?_⟩ <;> exact (parseNumber_eq_some_iff _ _).mp (by decide)
theorem witness_no_numeral : ∀ v : Word, ¬ NumeralOf "2147483648".toList v := by
  intro v h
  have hn : parseNumber "2147483648".toList = none := by decide
  rw [(parseNumber_eq_some_iff _ _).mpr h] at hn
  exact absurd hn (by simp)
theorem witness_operand_tokens :
    resolve "%EIP".toList = .reg .eip ∧ resolve "$-0".toList = .imm 0#32 ∧ resolve "-4(%ESP)".toList = .mem .esp (-4#32) := by
  decide
/-- 95_test_vectors.md B2, B8, B10: a missing operand token is Invalid, or the empty label token. -/
theorem test_missing_tokens :
    reads "MOVL" (.movl .invalid .invalid) = true ∧ reads "ADDL $1" (.addl (.imm 1#32) .invalid) = true
      ∧ reads "PUSHL" (.pushl .invalid) = true ∧ reads "JMP" (.jmp []) = true := by decide
theorem witness_opcode_line :
    Config.default.wf = true ∧ tokenOk "~".toList = true ∧ "~".toList ≠ [] ∧ tokenOk "!".toList = true ∧ "!".toList ≠ []
      ∧ Config.default.sublImplemented = true := by decide

/-! ### ... the sequencer -/

theorem witness_step_runs :
    (put (demo ["A", "RET"]) .eip 4).status = .running ∧ (put (demo ["A", "RET"]) .eip 4).programOk = true
      ∧ 0 ≤ (put (demo ["A", "RET"]) .eip 4).pc ∧ (put (demo ["A", "RET"]) .eip 4).pc % 4 = 0
      ∧ (demo ["A", "RET"]).imem[((put (demo ["A", "RET"]) .eip 4).pc / 4).toNat]? = some "RET".toList
      ∧ decode Config.default "RET".toList = .ok .ret := by
  exact ⟨rfl, by decide, by decide, by decide, by decide, rfl⟩
theorem witness_fetch_outside :
    (put (demo ["A"]) .eip (-1)).programOk = true ∧ (put (demo ["A"]) .eip (-1)).pc < 0
      ∧ (1 : Int) * 4 ≤ (put (demo ["A"]) .eip 4).pc ∧ (demo ["A"]).imem.length = 1 := by decide
theorem witness_refused_program :
    (∃ l ∈ (demo ["A", "B "]).imem, lineOk l = false)
      ∧ ({ demo ["A", "B", "C"] with cfg := Config.ofMemWords 2 } : State).cfg.memWords < (demo ["A", "B", "C"]).imem.length := by
  decide
theorem witness_refused_fetch :
    (put (demo ["A"]) .eip 3).programOk = true ∧ 0 ≤ (put (demo ["A"]) .eip 3).pc
      ∧ (put (demo ["A"]) .eip 3).pc < 1 * 4 ∧ (put (demo ["A"]) .eip 3).pc % 4 ≠ 0
      ∧ (put (demo ["A"]) .eip 1).pc % 4 ≠ 0 := by decide
theorem witness_refused_surplus :
    (demo ["RET x"]).programOk = true ∧ (demo ["RET x"]).imem[0]? = some "RET x".toList
      ∧ decode Config.default "RET x".toList = .error .surplusTokens := ⟨by decide, rfl, rfl⟩
theorem witness_terminal :
    (State.reset.enterFault .pcError).status = .faulted .pcError ∧ (State.reset.enterFault .pcError).status ≠ .running
      ∧ (State.reset.halt .outOfRange).status ≠ .running := by decide
theorem witness_unrecognised_line :
    (demo ["MOV x"]).programOk = true ∧ (demo ["MOV x"]).imem[0]? = some "MOV x".toList
      ∧ "MOV x".toList ≠ Config.default.endMarker
      ∧ ∀ (m : Mnemonic) (operands : List Token), tokenise "MOV x".toList = m.text :: operands →
          m = .subl ∧ Config.default.sublImplemented = false := by
  refine ⟨by decide, rfl, by decide, fun m operands h => ?_⟩
  have h0 : "MOV".toList = m.text := (List.cons.inj h).1
  revert h0
  cases m <;> decide
theorem witness_absent_subl_line :
    ∀ (m : Mnemonic) (operands : List Token), tokenise "SUBL x".toList = m.text :: operands →
      m = .subl ∧ noSubl.sublImplemented = false := by
  intro m operands h
  have h0 : "SUBL".toList = m.text := (List.cons.inj h).1
  revert h0
  cases m <;> decide
theorem witness_end_marker :
    (put (demo ["", "END"]) .eip 4).programOk = true ∧ (put (demo ["", "END"]) .eip 4).pc = 4
      ∧ (demo ["", "END"]).imem[1]? = some Config.default.endMarker := by decide
theorem witness_data_success :
    hostExec (.movl "$5".toList "%EAX".toList) (demo []) = .ok (.success, put (demo []) .eax 5)
      ∧ hostExec (.addl "$5".toList "%EAX".toList) (demo []) = .ok (.success, put (demo []) .eax 5)
      ∧ hostExec (.subl "$-5".toList "%EAX".toList) (demo []) = .ok (.success, put (demo []) .eax 5)
      ∧ hostExec (.cmpl "$-5".toList "%EAX".toList) (demo []) = .ok (.success, { demo [] with flag := .greater })
      ∧ hostExec (.pushl "$0".toList) (demo []) = .ok (.success, put (demo []) .esp 4088)
      ∧ hostExec (.popl "%EIP".toList) (put (demo []) .esp 0) = .ok (.success, put (demo []) .esp 4) :=
  ⟨rfl, rfl, rfl, rfl, rfl, rfl⟩
theorem witness_data_failure :
    hostExec (.movl [] "%EAX".toList) (demo []) = .ok (ErrorCode.instructionError.result, demo [])
      ∧ hostExec (.popl "%EAX".toList) (demo []) = .ok (ErrorCode.memoryError.result, demo []) := ⟨rfl, rfl⟩

/-! ### ... the whole machine -/

theorem witness_invariant_step :
    (poke (demo ["PUSHL $7"]) 0 1).inv ∧ goes (poke (demo ["PUSHL $7"]) 0 1) (fun t => t.mem.length == 2) = true := by
  decide
theorem witness_init : (demo ["A"]).cfg.wf = true ∧ (demo ["A"]).programOk = true := by decide
theorem witness_step_next : step (demo ["A"]) = .next (put (demo ["A"]) .eip 4) := rfl
theorem witness_failed_operation :
    hostExec (.jump .je ".a".toList) (demo []) = .ok (.pcError, demo []) ∧ ResultCode.pcError ≠ .success
      ∧ step (demo ["JE .a"]) = .next { demo ["JE .a"] with status := .faulted .pcError } := ⟨rfl, by decide, rfl⟩
theorem witness_flag_change :
    exec (.cmpl (.imm 1#32) (.reg .eax)) (demo []) = .next { put (demo []) .eip 4 with flag := .less } := rfl
theorem witness_no_flag_reader : ∀ tok, Instr.ret ≠ .je tok ∧ Instr.ret ≠ .jne tok ∧ Instr.ret ≠ .jl tok ∧ Instr.ret ≠ .jg tok := by
  simp
theorem witness_register_change :
    exec (.movl (.imm 1#32) (.reg .ebp)) (demo []) = .next (put (put (demo []) .ebp 1) .eip 4)
      ∧ exec (.pushl (.imm 0#32)) (demo []) = .next (put (put (demo []) .esp 4088) .eip 4) := ⟨rfl, rfl⟩
theorem witness_run_ends :
    step (demo ["END"]) = .next { demo ["END"] with status := .halted .endMarker }
      ∧ step (demo []) = .next { demo [] with status := .halted .outOfRange } := ⟨rfl, rfl⟩

/-! ### ... memory -/

theorem witness_valid_addresses :
    ValidAddr Config.default 0 ∧ ValidAddr Config.default 4092 ∧ ¬ ValidAddr Config.default 4096
      ∧ ¬ ValidAddr Config.default (-4) ∧ ¬ ValidAddr Config.default 4090 := by decide
theorem witness_canonical_memories :
    Memory.wf [(0, 1#32), (4, 2#32)] ∧ Memory.write (Memory.write [] 4 2#32) 0 1#32 = [(0, 1#32), (4, 2#32)] := by decide

/-! ### ... MOVL, ADDL, SUBL, CMPL -/

theorem witness_two_operands :
    operandValue (demo []) (.imm 5#32) = some 5#32
      ∧ operandPlace (demo []) (.mem .ebp 0#32) = some (.word 4092) ∧ operandPlace (demo []) (.mem .eax 0#32) = some (.word 0)
      ∧ operandValue (demo []) (.mem .ebp 0#32) = some 0#32 ∧ operandPlace (demo []) (.reg .eip) = some (.register .eip)
      ∧ ¬ BothMemory (.imm 5#32) (.mem .ebp 0#32) ∧ ¬ BothMemory (.mem .ebp 0#32) (.reg .eip) := by
  refine ⟨rfl, rfl, rfl, rfl, rfl, ?_, ?_⟩ <;> simp [BothMemory]
theorem witness_ill_typed :
    IllTypedPair .invalid (.reg .eax) ∧ IllTypedPair (.reg .eax) .invalid ∧ IllTypedPair (.reg .eax) (.imm 5#32)
      ∧ IllTypedPair (.mem .eax 0#32) (.mem .edx 2#32) := by
  simp [IllTypedPair, BothMemory]
theorem witness_bad_address :
    ¬ IllTypedPair (.imm 1#32) (.mem .ebp 4#32) ∧ BadAddress (demo []) (.mem .ebp 4#32)
      ∧ ¬ IllTypedPair (.mem .eax (-4#32)) (.reg .eax) ∧ BadAddress (demo []) (.mem .eax (-4#32))
      ∧ BadAddress (demo []) (.mem .eax 2#32) := by
  refine ⟨by simp [IllTypedPair, BothMemory], ⟨.ebp, 4#32, rfl, by decide⟩, by simp [IllTypedPair, BothMemory],
    ⟨.eax, -4#32, rfl, by decide⟩, ⟨.eax, 2#32, rfl, by decide⟩⟩
theorem witness_swapped_compare :
    operandPlace (demo []) (.reg .eax) = some (.register .eax) ∧ operandPlace (demo []) (.mem .eax 4#32) = some (.word 4)
      ∧ ¬ BothMemory (.reg .eax) (.mem .eax 4#32) := ⟨rfl, rfl, by simp [BothMemory]⟩
theorem witness_flag_orders :
    compareFlag 0x80000000#32 0x7FFFFFFF#32 = .less ∧ compareFlag 0#32 0#32 = .equal ∧ compareFlag 1#32 0#32 = .greater := by
  decide

/-! ### ... the stack -/

theorem witness_push_room :
    PushRoom (put (demo []) .esp 8) ∧ PushRoom (put (demo []) .esp 4096) ∧ operandValue (demo []) (.reg .esp) = some 4092#32
      ∧ ¬ PushRoom (put (demo []) .esp 4) ∧ ¬ PushRoom (put (demo []) .esp 4100) := by decide
theorem witness_push_bad_source :
    (Operand.mem .eax 2#32) ≠ .invalid ∧ BadAddress (demo []) (.mem .eax 2#32) := ⟨by decide, ⟨.eax, 2#32, rfl, by decide⟩⟩
theorem witness_pop_room :
    PopRoom (put (demo []) .esp 0) ∧ PopRoom (put (demo []) .esp 4088) ∧ ¬ PopRoom (demo [])
      ∧ ¬ PopRoom (put (demo []) .esp 4090) := by decide
theorem witness_pop_memory :
    PopRoom (put (demo []) .esp 4088) ∧ ValidAddr Config.default (operandAddr (put (demo []) .esp 4088) .esp 4#32) := by decide
theorem witness_pop_faults :
    (∃ v, Operand.imm 5#32 = .imm v) ∧ (Operand.mem .eax 2#32 ≠ .invalid) ∧ (∀ v, Operand.mem .eax 2#32 ≠ .imm v)
      ∧ BadAddress (put (demo []) .esp 4088) (.mem .eax 2#32) :=
  ⟨⟨_, rfl⟩, by decide, by simp, ⟨.eax, 2#32, rfl, by decide⟩⟩
theorem witness_push_then_pop :
    operandValue (demo []) (.reg .eax) = some 0#32 ∧ PushRoom (demo []) ∧ ValidAddr Config.default ((demo []).reg .esp).toInt
      ∧ PushRoom (put (demo []) .esp 8) ∧ ValidAddr Config.default 8 := by decide
theorem witness_three_pushes :
    (∀ r ∈ [Reg.eax, .eax, .ebp], r ≠ .esp ∧ r ≠ .eip) ∧ ValidAddr Config.default ((put (demo []) .esp 16).reg .esp).toInt
      ∧ 16 ≤ ((put (demo []) .esp 16).reg .esp).toInt := by decide
theorem witness_guard :
    exec (.pushl (.imm 1#32)) (put (demo []) .esp 8) = .next (poke (put (put (demo []) .esp 4) .eip 4) 4 1)
      ∧ exec (.call ".f".toList) (put (demo [".f"]) .esp 8) = .next (poke (put (put (demo [".f"]) .esp 4) .eip 4) 4 4) :=
  ⟨rfl, rfl⟩

/-! ### ... control transfer -/

theorem witness_label_addresses :
    LabelAddr (text [".a", "B", ".b", ".a", ".c"]) ".a".toList 4
      ∧ LabelAddr (text [".a", "B", ".b", ".a", ".c"]) ".c".toList 20 := by
  constructor <;> exact (findLabel_eq_some_iff _ _ _).mp (by decide)
theorem witness_found_label : findLabel (text [".a", "B", ".b", ".a", ".c"]) ".b".toList = some 12 ∧ (demo [".a"]).inv := by
  decide
theorem witness_no_label :
    NoLabel (text [".a", "B"]) "B".toList ∧ NoLabel (text [".a", "B"]) ".A".toList ∧ NoLabel (text [".a", "B"]) [] := by
  refine ⟨?_, ?_, ?_⟩ <;> exact (findLabel_eq_none_iff _ _).mp (by decide)
/-- Each instruction of the jump family, taken, not taken and to its own address, from the states named. -/
theorem witness_jump_conditions :
    LabelAddr (demo [".a"]).imem ".a".toList 4 ∧ wrap32 4 ≠ (demo [".a"]).reg .eip
      ∧ wrap32 4 = (put (demo [".a"]) .eip 4).reg .eip ∧ Flag.equal.value = 0 ∧ Flag.less.value = -1 ∧ Flag.greater.value = 1
      ∧ Flag.less.value ≠ 0 ∧ ¬ Flag.less.value = 1 ∧ ¬ Flag.greater.value = -1 ∧ ¬ Flag.greater.value = 0 :=
  ⟨(findLabel_eq_some_iff _ _ _).mp (by decide), by decide, by decide, by decide, by decide, by decide, by decide, by decide,
    by decide, by decide⟩
theorem witness_jump_to_itself :
    LabelAddr (put (demo [".s", "JMP .s"]) .eip 4).imem ".s".toList (put (demo [".s", "JMP .s"]) .eip 4).pc
      ∧ PushRoom (put (demo [".s", "CALL .s"]) .eip 4) :=
  ⟨(findLabel_eq_some_iff _ _ _).mp (by decide), by decide⟩
theorem witness_ret_to_itself :
    ValidAddr (demo ["RET"]).cfg ((demo ["RET"]).reg .esp).toInt
      ∧ (demo ["RET"]).mem.read ((demo ["RET"]).reg .esp).toInt.toNat = (demo ["RET"]).reg .eip
      ∧ 0 ≤ (demo ["RET"]).pc ∧ (demo ["RET"]).pc < ((demo ["RET"]).imem.length : Int) * 4 ∧ (demo ["RET"]).pc % 4 = 0 := by
  decide
theorem witness_call :
    LabelAddr (demo [".f"]).imem ".f".toList 4 ∧ ¬ PushRoom (put (demo [".f"]) .esp 4) ∧ PushRoom (put (demo [".f"]) .esp 8) :=
  ⟨(findLabel_eq_some_iff _ _ _).mp (by decide), by decide, by decide⟩
/-- An ESP that is not valid, and top words at and beside the ends of a program of one slot. -/
theorem witness_ret :
    ¬ ValidAddr Config.default ((put (demo ["A"]) .esp 4096).reg .esp).toInt
      ∧ ¬ (0 ≤ (4#32 : Word).toInt ∧ (4#32 : Word).toInt < ((demo ["A"]).imem.length : Int) * 4 ∧ (4#32 : Word).toInt % 4 = 0)
      ∧ ¬ (0 ≤ (-4#32 : Word).toInt) ∧ (2#32 : Word).toInt % 4 ≠ 0
      ∧ ValidAddr Config.default ((demo ["A"]).reg .esp).toInt ∧ (0#32 : Word).toInt < ((demo ["A"]).imem.length : Int) * 4
      ∧ (demo ["A"]).mem.read ((demo ["A"]).reg .esp).toInt.toNat = 0#32
      ∧ (poke (demo ["A"]) 4092 4).mem.read 4092 = 4#32 := by decide
theorem witness_call_then_ret :
    (demo ["CALL .f", "END", ".f", "RET"]).inv ∧ (demo ["CALL .f", "END", ".f", "RET"]).pc = (0 : Int) * 4
      ∧ (demo ["CALL .f", "END", ".f", "RET"]).imem[0]? = some ("CALL ".toList ++ ".f".toList) ∧ tokenOk ".f".toList = true
      ∧ LabelAddr (demo ["CALL .f", "END", ".f", "RET"]).imem ".f".toList 12
      ∧ (demo ["CALL .f", "END", ".f", "RET"]).imem[((12 : Int) / 4).toNat]? = some "RET".toList
      ∧ 0 + 1 < (demo ["CALL .f", "END", ".f", "RET"]).imem.length ∧ PushRoom (demo ["CALL .f", "END", ".f", "RET"]) :=
  ⟨by decide, by decide, by decide, by decide, (findLabel_eq_some_iff _ _ _).mp (by decide), by decide, by decide, by decide⟩

/-! ### ... the host operations -/

theorem witness_host_exec :
    hostExec (.addl "$1".toList "%EDX".toList) (demo []) = .ok (.success, put (demo []) .edx 1)
      ∧ resolve "%EDX".toList ≠ .reg .eip ∧ hostExec .ret (demo ["A"]) = .ok (.success, put (demo ["A"]) .esp 4096) :=
  ⟨rfl, by decide, rfl⟩
/-- A taken jump to its own address and a declined one, and what CALL and RET need, on the program `.s`. -/
theorem witness_host_jump :
    (put (demo [".s"]) .eip 4).programOk = true ∧ LabelAddr (put (demo [".s"]) .eip 4).imem ".s".toList 4
      ∧ hostExec (.jump .je ".s".toList) (put (demo [".s"]) .eip 4) = .ok (.success, put (demo [".s"]) .eip 4)
      ∧ hostExec (.jump .jne ".s".toList) (demo [".s"]) = .ok (.success, demo [".s"])
      ∧ NoLabel (demo [".s"]).imem "s".toList :=
  ⟨by decide, (findLabel_eq_some_iff _ _ _).mp (by decide), rfl, rfl, (findLabel_eq_none_iff _ _).mp (by decide)⟩
theorem witness_host_call_and_ret :
    (put (demo [".f"]) .esp 8).programOk = true ∧ LabelAddr (put (demo [".f"]) .esp 8).imem ".f".toList 4
      ∧ PushRoom (put (demo [".f"]) .esp 8) ∧ ¬ PushRoom (put (demo [".f"]) .esp 4)
      ∧ hostExec (.call ".f".toList) (put (demo [".f"]) .esp 8) = .ok (.success, poke (put (put (demo [".f"]) .esp 4) .eip 4) 4 4)
      ∧ hostExec .ret (poke (demo ["A"]) 4092 4) = .ok (.pcError, poke (demo ["A"]) 4092 4)
      ∧ hostExec .ret (put (demo ["A"]) .esp 4096) = .ok (.memoryError, put (demo ["A"]) .esp 4096) :=
  ⟨by decide, (findLabel_eq_some_iff _ _ _).mp (by decide), by decide, by decide, rfl, rfl, rfl⟩
theorem witness_run :
    runUntilStop 2 (demo ["A"]) = .ended { put (demo ["A"]) .eip 4 with status := .halted .outOfRange } := by decide
theorem witness_placed_line : Config.default.wf = true ∧ (demo ["A"]).programOk = true ∧ lineOk "RET".toList = true := by decide

end Sys2Proof.Tests
end

/-! ## State and reset (10_state.md, 70_reset_and_hazards.md) -/

section
namespace Sys2Proof.Machine

/-! ### INIT (10_state.md R30) -/

/-- INIT establishes the invariant: data memory is empty, so its form and its addresses need no check. -/
theorem State.init_inv {s : State} (hcfg : s.cfg.wf = true) (hprog : s.programOk = true) : s.init.inv :=
  ⟨hcfg, hprog, Memory.wf_nil, by simp [State.init]⟩

/-- Settles O19: reset is INIT of a state with the default parameters and no program, so its invariant is INIT's. -/
theorem invariantHoldsAfterReset : Obligations.InvariantHoldsAfterReset :=
  ⟨fun _ hcfg hprog => State.init_inv hcfg hprog, State.init_inv (by decide) (by decide)⟩

/-- Settles O28: every item is read off the definition of INIT. -/
theorem initSetsEveryStateItem : Obligations.InitSetsEveryStateItem := by
  intro s
  exact ⟨rfl, rfl, rfl, rfl, rfl, rfl, rfl, fun _ => rfl, rfl, rfl, rfl⟩

/-! ### What an instruction does to the status, the flag and the registers -/

/-- An instruction that answers a next state enters a fault, is the end marker and halts, or keeps the status. -/
theorem exec_next_status {i : Instr} {s t : State} (h : exec i s = .next t) :
    (∃ c, t = s.enterFault c) ∨ (i = .endMarker ∧ t = s.halt .endMarker) ∨
      (i ≠ .endMarker ∧ t.status = s.status) := by
  by_cases hend : i = .endMarker
  · subst hend
    exact .inr (.inl ⟨rfl, (Host.Outcome.next.inj h).symm⟩)
  rcases exec_next_cases h with hfault | hhalt | ⟨v, rfl⟩ | ⟨src, dst, v, -, -, rfl⟩ | ⟨src, dst, f, -, rfl⟩ |
    ⟨src, v, -, -, rfl⟩ | ⟨r, -, -, rfl⟩ | ⟨b, o, -, -, -, rfl⟩ | ⟨tok, a, -, -, rfl⟩ | ⟨-, -, rfl⟩
  case inl => exact .inl hfault
  case inr.inl => exact .inr (.inl hhalt)
  all_goals exact .inr (.inr ⟨hend, by simp⟩)

/-- The one instruction that can leave another flag is CMPL (10_state.md R25). -/
theorem exec_next_flag {i : Instr} {s t : State} (h : exec i s = .next t) :
    t.flag = s.flag ∨ ∃ src dst, i = .cmpl src dst := by
  rcases exec_next_cases h with ⟨c, rfl⟩ | ⟨-, rfl⟩ | ⟨v, rfl⟩ | ⟨src, dst, v, -, -, rfl⟩ | ⟨src, dst, f, hi, rfl⟩ |
    ⟨src, v, -, -, rfl⟩ | ⟨r, -, -, rfl⟩ | ⟨b, o, -, -, -, rfl⟩ | ⟨tok, a, -, -, rfl⟩ | ⟨-, -, rfl⟩
  case inr.inr.inr.inr.inl => exact .inr ⟨src, dst, hi⟩
  all_goals exact .inl (by simp)

/-- `WriteOp` changes a register only where the destination names it (40_alu.md R92). -/
theorem writeOperand_reg (s : State) (d : Operand) (v : Word) (r : Reg) :
    (writeOperand s d v).reg r = if d = .reg r then v else s.reg r := by
  cases d with
  | reg q => simp [writeOperand, eq_comm]
  | mem b o => simp [writeOperand]
  | imm w => simp [writeOperand]
  | invalid => simp [writeOperand]

/-- Settles O23: no instruction but CMPL can leave another flag. -/
theorem onlyCmplChangesTheFlag : Obligations.OnlyCmplChangesTheFlag :=
  fun _ _ _ h hne => (exec_next_flag h).resolve_left hne

/-- Settles O26, by the cases of what an instruction can do: in each one the register read back differs from the
old one only where the destination is that register or where ESP moves. -/
theorem registerChangesOnlyByNameOrByTheStack : Obligations.RegisterChangesOnlyByNameOrByTheStack := by
  intro i s t r h hr hne
  rcases exec_next_cases h with ⟨c, rfl⟩ | ⟨-, rfl⟩ | ⟨v, rfl⟩ | ⟨src, dst, v, hi, -, rfl⟩ | ⟨src, dst, f, -, rfl⟩ |
    ⟨src, v, hi, -, rfl⟩ | ⟨q, hi, -, rfl⟩ | ⟨b, o, hi, -, -, rfl⟩ | ⟨tok, a, hi, -, rfl⟩ | ⟨hi, -, rfl⟩
  · simp at hne
  · simp at hne
  · simp [hr] at hne
  · obtain rfl : dst = .reg r := not_imp_comm.mp (fun hd => by simp [hr, writeOperand_reg, hd]) hne
    exact .inl ⟨src, hi⟩
  · simp [hr] at hne
  · have hesp : r = .esp := not_imp_comm.mp (fun hd => by simp [hr, hd]) hne
    exact .inr (.inr ⟨hesp, .inl ⟨src, .inl hi⟩⟩)
  · by_cases hq : r = q
    · exact .inr (.inl (hq ▸ hi))
    · have hesp : r = .esp := not_imp_comm.mp (fun hd => by simp [hr, hd, hq]) hne
      exact .inr (.inr ⟨hesp, .inl ⟨_, .inr hi⟩⟩)
  · have hesp : r = .esp := not_imp_comm.mp (fun hd => by simp [hr, hd]) hne
    exact .inr (.inr ⟨hesp, .inl ⟨_, .inr hi⟩⟩)
  · have hesp : r = .esp := not_imp_comm.mp (fun hd => by simp [hr, hd]) hne
    exact .inr (.inr ⟨hesp, .inr (.inl ⟨tok, hi⟩)⟩)
  · have hesp : r = .esp := not_imp_comm.mp (fun hd => by simp [hr, hd]) hne
    exact .inr (.inr ⟨hesp, .inr (.inr hi)⟩)

/-! ### All-or-nothing (10_state.md R32) -/

/-- What a host operation answers is what its executor reports. -/
theorem hostExec_eq_ok {c : ExecCall} {s : State} {out : ResultCode × State} (h : hostExec c s = .ok out) :
    out = (c.execute s).report s := by
  unfold hostExec at h
  split at h
  · simpa using h.symm
  · simp at h

/-- A report with another code than SUCCESS comes with the state as it was. -/
theorem report_of_ne_success {s : State} {r : ExecResult} (h : (r.report s).1 ≠ .success) : (r.report s).2 = s := by
  cases r with
  | success t => exact absurd rfl h
  | raised c => rfl

/-- A step that ends in a faulted status has entered that fault and done nothing else (43_sequencer.md R149). -/
theorem step_next_of_faulted {s t : State} {e : ErrorCode} (h : step s = .next t) (ht : t.status = .faulted e) :
    t = s.enterFault e := by
  obtain ⟨hrun, -, ⟨-, rfl⟩ | ⟨l, i, -, -, hexec⟩⟩ := step_next_cases h
  · simp at ht
  · rcases exec_next_status hexec with ⟨c, rfl⟩ | ⟨-, rfl⟩ | ⟨-, hkeep⟩
    · obtain rfl : c = e := by simpa using ht
      rfl
    · simp at ht
    · simp [hkeep, hrun] at ht

/-- Settles O22: a report of an error carries the old state, and a step into a faulted status is the entry of the
fault. -/
theorem failedOperationChangesNothing : Obligations.FailedOperationChangesNothing := by
  refine ⟨fun c s t code h hne => ?_, fun s t e h ht => step_next_of_faulted h ht⟩
  have hout := hostExec_eq_ok h
  have hcode : ((c.execute s).report s).1 ≠ .success := by rwa [← hout]
  have hstate := report_of_ne_success hcode
  rwa [← hout] at hstate

/-! ### Updates of the flag and the status that executors do not see

An update of the control items alone commutes with every access to registers and memory. So an executor started
in the updated state does what it did before, and leaves the updated result. -/

/-- Another flag, and nothing else. -/
def State.setFlag (f : Flag) (s : State) : State := { s with flag := f }

/-- Another status, and nothing else. -/
def State.setStatus (st : RunStatus) (s : State) : State := { s with status := st }

/-- The update leaves parameters, program, registers and memory, and commutes with a write of either. -/
structure ControlUpdate (g : State → State) : Prop where
  cfg : ∀ s, (g s).cfg = s.cfg
  imem : ∀ s, (g s).imem = s.imem
  regs : ∀ s, (g s).regs = s.regs
  mem : ∀ s, (g s).mem = s.mem
  setReg : ∀ s r v, g (s.setReg r v) = (g s).setReg r v
  store : ∀ s a v, g (s.store a v) = (g s).store a v

theorem State.controlUpdate_setFlag (f : Flag) : ControlUpdate (State.setFlag f) where
  cfg _ := rfl
  imem _ := rfl
  regs _ := rfl
  mem _ := rfl
  setReg _ _ _ := rfl
  store _ _ _ := rfl

theorem State.controlUpdate_setStatus (st : RunStatus) : ControlUpdate (State.setStatus st) where
  cfg _ := rfl
  imem _ := rfl
  regs _ := rfl
  mem _ := rfl
  setReg _ _ _ := rfl
  store _ _ _ := rfl

/-- Beside the executor's result `r` from `s`, the result `r'` from `g s` is the same error, or SUCCESS with the
updated state; a success keeps the status. -/
def RunFollows (g : State → State) (s : State) (r r' : ExecResult) : Prop :=
  (∃ t, r = .success t ∧ t.status = s.status ∧ r' = .success (g t)) ∨ ∃ c, r = .raised c ∧ r' = .raised c

/-- The same for what the sequencer makes of the two results. -/
def OutcomeFollows (g : State → State) (s : State) (o o' : Host.Outcome State Fault Refusal) : Prop :=
  (∃ t, o = .next t ∧ t.status = s.status ∧ o' = .next (g t)) ∨
    ∃ c, o = .next (s.enterFault c) ∧ o' = .next ((g s).enterFault c)

theorem RunFollows.raised {g : State → State} {s : State} (c : ErrorCode) :
    RunFollows g s (.raised c) (.raised c) := .inr ⟨c, rfl, rfl⟩

theorem RunFollows.success {g : State → State} {s t t' : State} (hst : t.status = s.status) (ht : t' = g t) :
    RunFollows g s (.success t) (.success t') := .inl ⟨t, rfl, hst, by rw [ht]⟩

/-- After CALL and RET the sequencer adds nothing to what the executor left. -/
theorem RunFollows.afterTransfer {g : State → State} {s : State} {r r' : ExecResult} (h : RunFollows g s r r') :
    OutcomeFollows g s (afterTransfer s r) (afterTransfer (g s) r') := by
  obtain ⟨t, rfl, hst, rfl⟩ | ⟨c, rfl, rfl⟩ := h
  · exact .inl ⟨t, rfl, hst, rfl⟩
  · exact .inr ⟨c, rfl, rfl⟩

/-- The shape the two-operand executors share: the checks of R90, then SUCCESS with the state `t`. -/
def validated (src dst : Operand) (s t : State) : ExecResult :=
  match validate2 src dst s with
  | some code => .raised code
  | none => .success t

theorem runMovl_eq_validated (src dst : Operand) (s : State) :
    runMovl src dst s = validated src dst s (writeOperand s dst (readOperand s src)) := rfl

theorem runAddl_eq_validated (src dst : Operand) (s : State) :
    runAddl src dst s = validated src dst s
      (writeOperand s dst (wrap32 ((readOperand s dst).toInt + (readOperand s src).toInt))) := rfl

theorem runSubl_eq_validated (src dst : Operand) (s : State) :
    runSubl src dst s = validated src dst s
      (writeOperand s dst (wrap32 ((readOperand s dst).toInt - (readOperand s src).toInt))) := rfl

theorem runCmpl_eq_validated (src dst : Operand) (s : State) :
    runCmpl src dst s = validated src dst s
      (s.setFlag (compareFlag (readOperand s dst) (readOperand s src))) := rfl

namespace ControlUpdate

variable {g : State → State} (hg : ControlUpdate g)
include hg

/-! #### Accesses -/

theorem reg (s : State) (r : Reg) : (g s).reg r = s.reg r := congrArg (·.get r) (hg.regs s)

theorem load (s : State) (a : Int) : (g s).load a = s.load a := congrArg (·.read a.toNat) (hg.mem s)

theorem pc (s : State) : (g s).pc = s.pc := congrArg BitVec.toInt (hg.reg s .eip)

theorem advance (s : State) : (g s).advance = g s.advance := by
  rw [State.advance, State.advance, hg.pc, hg.setReg]

theorem effectiveAddr (s : State) (b : Reg) (o : Word) :
    Machine.effectiveAddr (g s) b o = Machine.effectiveAddr s b o := by
  rw [Machine.effectiveAddr, Machine.effectiveAddr, hg.reg]

theorem operandAddrOk (s : State) (op : Operand) : Machine.operandAddrOk (g s) op = Machine.operandAddrOk s op := by
  cases op with
  | mem b o => rw [Machine.operandAddrOk, Machine.operandAddrOk, hg.cfg, hg.effectiveAddr]
  | reg r => rfl
  | imm v => rfl
  | invalid => rfl

theorem validate2 (src dst : Operand) (s : State) : Machine.validate2 src dst (g s) = Machine.validate2 src dst s := by
  simp only [Machine.validate2, hg.operandAddrOk]

theorem readOperand (s : State) (op : Operand) : Machine.readOperand (g s) op = Machine.readOperand s op := by
  cases op with
  | mem b o => rw [Machine.readOperand, Machine.readOperand, hg.effectiveAddr, hg.load]
  | reg r => exact hg.reg s r
  | imm v => rfl
  | invalid => rfl

theorem writeOperand (s : State) (d : Operand) (v : Word) :
    Machine.writeOperand (g s) d v = g (Machine.writeOperand s d v) := by
  cases d with
  | reg r => exact (hg.setReg s r v).symm
  | mem b o => rw [Machine.writeOperand, Machine.writeOperand, hg.effectiveAddr, hg.store]
  | imm w => rfl
  | invalid => rfl

theorem pushAddr (s : State) : Machine.pushAddr (g s) = Machine.pushAddr s := by
  rw [Machine.pushAddr, Machine.pushAddr, hg.reg]

theorem pushAllowed (s : State) : Machine.pushAllowed (g s) = Machine.pushAllowed s := by
  rw [Machine.pushAllowed, Machine.pushAllowed, hg.cfg, hg.pushAddr]

theorem pushWord (s : State) (v : Word) : Machine.pushWord (g s) v = g (Machine.pushWord s v) := by
  rw [Machine.pushWord, Machine.pushWord, hg.pushAddr, hg.setReg, hg.store]

theorem popAllowed (s : State) : Machine.popAllowed (g s) = Machine.popAllowed s := by
  rw [Machine.popAllowed, Machine.popAllowed, hg.cfg, hg.reg]

theorem topOfStack (s : State) : Machine.topOfStack (g s) = Machine.topOfStack s := by
  rw [Machine.topOfStack, Machine.topOfStack, hg.reg, hg.load]

theorem raiseEsp (s : State) : Machine.raiseEsp (g s) = g (Machine.raiseEsp s) := by
  rw [Machine.raiseEsp, Machine.raiseEsp, hg.reg, hg.setReg]

theorem returnAddrOk (s : State) (a : Int) : Machine.returnAddrOk (g s) a = Machine.returnAddrOk s a := by
  rw [Machine.returnAddrOk, Machine.returnAddrOk, State.instrCount, State.instrCount, hg.imem]

/-! #### Executors -/

theorem validated_follows (src dst : Operand) {s t t' : State} (hst : t.status = s.status) (ht : t' = g t) :
    RunFollows g s (validated src dst s t) (validated src dst (g s) t') := by
  unfold validated
  rw [hg.validate2]
  cases Machine.validate2 src dst s with
  | some c => exact .raised c
  | none => exact .success hst ht

theorem runMovl_follows (src dst : Operand) (s : State) :
    RunFollows g s (runMovl src dst s) (runMovl src dst (g s)) := by
  rw [runMovl_eq_validated, runMovl_eq_validated]
  exact hg.validated_follows src dst (by simp) (by simp only [hg.readOperand, hg.writeOperand])

theorem runAddl_follows (src dst : Operand) (s : State) :
    RunFollows g s (runAddl src dst s) (runAddl src dst (g s)) := by
  rw [runAddl_eq_validated, runAddl_eq_validated]
  exact hg.validated_follows src dst (by simp) (by simp only [hg.readOperand, hg.writeOperand])

theorem runSubl_follows (src dst : Operand) (s : State) :
    RunFollows g s (runSubl src dst s) (runSubl src dst (g s)) := by
  rw [runSubl_eq_validated, runSubl_eq_validated]
  exact hg.validated_follows src dst (by simp) (by simp only [hg.readOperand, hg.writeOperand])

/-- CMPL writes the flag, so the update has to commute with that too. -/
theorem runCmpl_follows (hflag : ∀ f s, g (State.setFlag f s) = (g s).setFlag f) (src dst : Operand) (s : State) :
    RunFollows g s (runCmpl src dst s) (runCmpl src dst (g s)) := by
  rw [runCmpl_eq_validated, runCmpl_eq_validated]
  exact hg.validated_follows src dst rfl (by rw [hg.readOperand, hg.readOperand, hflag])

theorem runPushl_follows (src : Operand) (s : State) : RunFollows g s (runPushl src s) (runPushl src (g s)) := by
  simp only [runPushl, hg.operandAddrOk, hg.pushAllowed, hg.readOperand, hg.pushWord]
  split_ifs
  · exact .raised _
  · exact .raised _
  · exact .raised _
  · exact .success (pushWord_status ..) rfl

theorem runPopl_follows (dst : Operand) (s : State) : RunFollows g s (runPopl dst s) (runPopl dst (g s)) := by
  cases dst with
  | invalid => exact .raised _
  | imm v => exact .raised _
  | reg r =>
    simp only [runPopl, hg.popAllowed, hg.topOfStack, ← hg.setReg, hg.raiseEsp]
    split_ifs
    · exact .raised _
    · exact .success (by simp) rfl
  | mem b o =>
    simp only [runPopl, hg.popAllowed, hg.operandAddrOk, hg.effectiveAddr, hg.topOfStack, ← hg.store, hg.raiseEsp]
    split_ifs
    · exact .raised _
    · exact .raised _
    · exact .success (by simp) rfl

theorem runJump_follows (taken : Bool) (tok : Token) (s : State) :
    RunFollows g s (runJump taken tok s) (runJump taken tok (g s)) := by
  unfold runJump
  rw [hg.imem]
  cases findLabel s.imem tok with
  | none => exact .raised _
  | some a =>
    cases taken with
    | true => exact .success (State.setReg_status ..) (hg.setReg ..).symm
    | false => exact .success rfl rfl

theorem runCall_follows (tok : Token) (s : State) : RunFollows g s (runCall tok s) (runCall tok (g s)) := by
  unfold runCall
  rw [hg.imem]
  cases findLabel s.imem tok with
  | none => exact .raised _
  | some a =>
    simp only [hg.pushAllowed, hg.pc, hg.pushWord, ← hg.setReg]
    split_ifs
    · exact .raised _
    · exact .success (by simp) rfl

theorem runRet_follows (s : State) : RunFollows g s (runRet s) (runRet (g s)) := by
  simp only [runRet, hg.cfg, hg.reg, hg.topOfStack, hg.returnAddrOk, ← hg.setReg, hg.raiseEsp]
  split_ifs
  · exact .raised _
  · exact .raised _
  · exact .success (by simp) rfl

/-! #### The sequencer and the instructions -/

theorem afterData_follows {s : State} {r r' : ExecResult} (h : RunFollows g s r r') :
    OutcomeFollows g s (afterData s r) (afterData (g s) r') := by
  obtain ⟨t, rfl, hst, rfl⟩ | ⟨c, rfl, rfl⟩ := h
  · exact .inl ⟨t.advance, rfl, hst, congrArg _ (hg.advance t)⟩
  · exact .inr ⟨c, rfl, rfl⟩

theorem afterJump_follows {s : State} {r r' : ExecResult} (h : RunFollows g s r r') :
    OutcomeFollows g s (afterJump s r) (afterJump (g s) r') := by
  obtain ⟨t, rfl, hst, rfl⟩ | ⟨c, rfl, rfl⟩ := h
  · simp only [afterJump, hg.reg, hg.advance]
    split_ifs
    · exact .inl ⟨t.advance, rfl, hst, rfl⟩
    · exact .inl ⟨t, rfl, hst, rfl⟩
  · exact .inr ⟨c, rfl, rfl⟩

/-- A jump line whose condition reads the same flag in both states. -/
theorem jump_follows (cond : Flag → Bool) (tok : Token) {s : State} (hflag : (g s).flag = s.flag) :
    OutcomeFollows g s (afterJump s (runJump (cond s.flag) tok s))
      (afterJump (g s) (runJump (cond (g s).flag) tok (g s))) := by
  rw [hflag]
  exact hg.afterJump_follows (hg.runJump_follows _ tok s)

/-- An instruction other than the end marker does in the updated state what it did before, provided that the update
keeps the flag where a conditional jump reads it and commutes with the flag where CMPL writes it. -/
theorem exec_follows {i : Instr} {s : State} (hend : i ≠ .endMarker)
    (hcmpl : ∀ src dst, i = .cmpl src dst → ∀ f s, g (State.setFlag f s) = (g s).setFlag f)
    (hjump : ∀ tok, i = .je tok ∨ i = .jne tok ∨ i = .jl tok ∨ i = .jg tok → (g s).flag = s.flag) :
    OutcomeFollows g s (exec i s) (exec i (g s)) := by
  cases i with
  | movl src dst => exact hg.afterData_follows (hg.runMovl_follows src dst s)
  | addl src dst => exact hg.afterData_follows (hg.runAddl_follows src dst s)
  | subl src dst => exact hg.afterData_follows (hg.runSubl_follows src dst s)
  | cmpl src dst => exact hg.afterData_follows (hg.runCmpl_follows (hcmpl src dst rfl) src dst s)
  | pushl src => exact hg.afterData_follows (hg.runPushl_follows src s)
  | popl dst => exact hg.afterData_follows (hg.runPopl_follows dst s)
  | jmp tok => exact hg.afterJump_follows (hg.runJump_follows true tok s)
  | je tok => exact hg.jump_follows condEqual tok (hjump tok (by simp))
  | jne tok => exact hg.jump_follows condNotEqual tok (hjump tok (by simp))
  | jl tok => exact hg.jump_follows condLess tok (hjump tok (by simp))
  | jg tok => exact hg.jump_follows condGreater tok (hjump tok (by simp))
  | call tok => exact (hg.runCall_follows tok s).afterTransfer
  | ret => exact (hg.runRet_follows s).afterTransfer
  | endMarker => exact absurd rfl hend
  | label text => exact .inl ⟨s.advance, rfl, rfl, congrArg _ (hg.advance s)⟩
  | unrecognised text => exact .inl ⟨s.advance, rfl, rfl, congrArg _ (hg.advance s)⟩

end ControlUpdate

/-! ### Noninterference of the flag and of the status (10_state.md R25, R28) -/

/-- CMPL overwrites the flag: from another one it leaves the very same state, or the same fault. -/
theorem exec_cmpl_setFlag (src dst : Operand) (s : State) (f : Flag) :
    (∃ t, exec (.cmpl src dst) s = .next t ∧ exec (.cmpl src dst) (s.setFlag f) = .next t) ∨
      ∃ c, exec (.cmpl src dst) s = .next (s.enterFault c) ∧
        exec (.cmpl src dst) (s.setFlag f) = .next ((s.setFlag f).enterFault c) := by
  have hg := State.controlUpdate_setFlag f
  simp only [exec, execCmpl, runCmpl, hg.validate2, hg.readOperand]
  cases validate2 src dst s with
  | none => exact .inl ⟨_, rfl, rfl⟩
  | some c => exact .inr ⟨c, rfl, rfl⟩

/-- Settles O24: CMPL and the end marker by themselves; every other instruction follows the update of the flag, and
leaves the flag as it is. -/
theorem onlyConditionalJumpsReadTheFlag : Obligations.OnlyConditionalJumpsReadTheFlag := by
  intro i s f hi
  by_cases hend : i = .endMarker
  · subst hend
    exact ⟨_, _, rfl, rfl, rfl, .inr ⟨rfl, rfl⟩⟩
  by_cases hcmpl : ∃ src dst, i = .cmpl src dst
  · obtain ⟨src, dst, rfl⟩ := hcmpl
    rcases exec_cmpl_setFlag src dst s f with ⟨t, h, h'⟩ | ⟨c, h, h'⟩
    · exact ⟨t, t, h, h', rfl, .inl rfl⟩
    · exact ⟨_, _, h, h', rfl, .inr ⟨rfl, rfl⟩⟩
  have hfollows := (State.controlUpdate_setFlag f).exec_follows (s := s) hend
    (fun src dst h => absurd ⟨src, dst, h⟩ hcmpl) (fun tok h => absurd h (by simp [hi tok]))
  rcases hfollows with ⟨t, h, -, h'⟩ | ⟨c, h, h'⟩
  · exact ⟨t, _, h, h', rfl, .inr ⟨(exec_next_flag h).resolve_right hcmpl, rfl⟩⟩
  · exact ⟨_, _, h, h', rfl, .inr ⟨rfl, rfl⟩⟩

/-- Settles O25: the end marker overwrites the status; every other instruction follows the update of the status,
since that update keeps the flag. -/
theorem noInstructionReadsTheStatus : Obligations.NoInstructionReadsTheStatus := by
  intro i s st
  by_cases hend : i = .endMarker
  · subst hend
    exact ⟨_, _, rfl, rfl, rfl, .inl rfl⟩
  have hfollows := (State.controlUpdate_setStatus st).exec_follows (s := s) hend
    (fun _ _ _ _ _ => rfl) (fun _ _ => rfl)
  rcases hfollows with ⟨t, h, hst, h'⟩ | ⟨c, h, h'⟩
  · exact ⟨t, _, h, h', rfl, .inr ⟨hst, rfl⟩⟩
  · exact ⟨_, _, h, h', rfl, .inl rfl⟩

end Sys2Proof.Machine
end

/-! ## Data memory (20_memory.md) -/

section
namespace Sys2Proof.Machine

/-! ### The canonical form (log entry 5) -/

/-- A canonical memory lists exactly the words that do not read as 0. -/
theorem Memory.mem_iff_of_wf {m : Memory} (h : m.wf) (a : Nat) (v : Word) :
    (a, v) ∈ m ↔ v ≠ 0#32 ∧ m.read a = v := by
  induction m with
  | nil => exact ⟨nofun, fun ⟨hv, hread⟩ => absurd hread.symm hv⟩
  | cons c rest ih =>
    obtain ⟨b, w⟩ := c
    obtain ⟨hrise, hnonzero⟩ := h
    obtain ⟨hhead, hrest⟩ := List.pairwise_cons.mp hrise
    obtain ⟨hw, hnonzero⟩ := List.forall_mem_cons.mp hnonzero
    rw [Memory.read_cons, List.mem_cons]
    by_cases hb : b = a
    · subst hb
      have hnew : (b, v) ∉ rest := fun hmem => Nat.lt_irrefl b (hhead _ hmem)
      rw [if_pos rfl]
      constructor
      · rintro (heq | hmem)
        · obtain rfl : v = w := congrArg Prod.snd heq
          exact ⟨hw, rfl⟩
        · exact absurd hmem hnew
      · rintro ⟨-, rfl⟩
        exact .inl rfl
    · rw [if_neg hb, ← ih ⟨hrest, hnonzero⟩]
      exact or_iff_right fun heq => hb (congrArg Prod.fst heq).symm

/-- Settles O30: the two memories list the same words, and a strictly rising list is determined by its elements. -/
theorem canonicalMemoriesThatReadAlikeAreEqual : Obligations.CanonicalMemoriesThatReadAlikeAreEqual := by
  intro m m' h h' hread
  have hmem : ∀ c : MemCell, c ∈ m ↔ c ∈ m' := fun ⟨a, v⟩ => by
    rw [Memory.mem_iff_of_wf h, Memory.mem_iff_of_wf h', hread]
  have hasymm : Std.Asymm (fun c d : MemCell => c.1 < d.1) := ⟨fun _ _ => Nat.lt_asymm⟩
  exact h.1.eq_of_mem_iff h'.1 hmem

/-! ### Reads after a write (20_memory.md R42) -/

/-- A valid address is not negative, so its number is the list's own (20_memory.md R41). -/
theorem ValidAddr.toNat_inj {cfg : Config} {a b : Int} (ha : ValidAddr cfg a) (hb : ValidAddr cfg b) :
    a.toNat = b.toNat ↔ a = b := by
  obtain ⟨ha, -⟩ := ha
  obtain ⟨hb, -⟩ := hb
  omega

/-- `MemRead` after `MemWrite`, on valid addresses. -/
theorem State.load_store {s : State} {a b : Int} (ha : ValidAddr s.cfg a) (hb : ValidAddr s.cfg b) (v : Word) :
    (s.store a v).load b = if b = a then v else s.load b := by
  rw [State.load, State.load, State.store_mem, Memory.read_write]
  exact if_congr (hb.toNat_inj ha) rfl rfl

theorem State.store_sameControl (s : State) (a : Int) (v : Word) : SameControl s (s.store a v) :=
  ⟨State.store_cfg s a v, State.store_imem s a v, State.store_flag s a v, State.store_status s a v⟩

/-- Settles O29: a word is read back through the list's own rule, and a store touches no other field. -/
theorem writeIsReadBackAndChangesNoOtherWord : Obligations.WriteIsReadBackAndChangesNoOtherWord :=
  fun s a _ v ha hb => ⟨State.load_store ha hb v, State.store_reg s a v, State.store_sameControl s a v⟩

/-! ### The program and the parameters (20_memory.md R52) -/

/-- The instruction table and the parameters are the same. -/
def SameProgram (s t : State) : Prop := t.imem = s.imem ∧ t.cfg = s.cfg

/-- No instruction changes the instruction table or a parameter. -/
theorem exec_next_sameProgram {i : Instr} {s t : State} (h : exec i s = .next t) : SameProgram s t := by
  rcases exec_next_cases h with ⟨c, rfl⟩ | ⟨-, rfl⟩ | ⟨v, rfl⟩ | ⟨src, dst, v, -, -, rfl⟩ | ⟨src, dst, f, -, rfl⟩ |
    ⟨src, v, -, -, rfl⟩ | ⟨r, -, -, rfl⟩ | ⟨b, o, -, -, -, rfl⟩ | ⟨tok, a, -, -, rfl⟩ | ⟨-, -, rfl⟩
  all_goals exact ⟨by simp, by simp⟩

/-- No step changes the instruction table or a parameter. -/
theorem step_next_sameProgram {s t : State} (h : step s = .next t) : SameProgram s t := by
  obtain ⟨-, -, ⟨-, rfl⟩ | ⟨l, i, -, -, hexec⟩⟩ := step_next_cases h
  · exact ⟨State.halt_imem .., State.halt_cfg ..⟩
  · exact exec_next_sameProgram hexec

/-- Settles O20: no step writes the table, and the fetch reads EIP and the table alone. -/
theorem storeIsNeverSeenByAFetch : Obligations.StoreIsNeverSeenByAFetch :=
  ⟨fun _ _ h => step_next_sameProgram h, fun _ _ => rfl⟩

/-! ### What a step does to data memory -/

/-- Data memory is the same but for at most one word, written at a valid address. -/
def StoresAtMostOnce (s t : State) : Prop :=
  t.mem = s.mem ∨ ∃ a v, ValidAddr s.cfg a ∧ t.mem = s.mem.write a.toNat v

/-- The four checks passed include the address of the destination (40_alu.md R90). -/
theorem operandAddrOk_of_validate2 {src dst : Operand} {s : State} (h : validate2 src dst s = none) :
    operandAddrOk s dst = true := by
  unfold validate2 at h
  split_ifs at h with _ _ _ _ hdst
  simpa using hdst

/-- `WriteOp` to a destination whose address has been checked. -/
theorem writeOperand_storesAtMostOnce {s : State} {d : Operand} (h : operandAddrOk s d = true) (v : Word) :
    StoresAtMostOnce s (writeOperand s d v) := by
  cases d with
  | mem b o => exact .inr ⟨operandAddr s b o, v, (validAddr_iff _ _).mp h, rfl⟩
  | reg r => exact .inl rfl
  | imm w => exact .inl rfl
  | invalid => exact .inl rfl

/-- A push that has room stores at the new top of the stack (41_stack.md R111). -/
theorem pushWord_storesAtMostOnce {s : State} (h : PushRoom s) (v : Word) : StoresAtMostOnce s (pushWord s v) :=
  .inr ⟨pushAddr s, v, h.1, pushWord_mem s v⟩

/-- An instruction stores at most one word, at an address it has checked. -/
theorem exec_next_storesAtMostOnce {i : Instr} {s t : State} (h : exec i s = .next t) : StoresAtMostOnce s t := by
  rcases exec_next_cases h with ⟨c, rfl⟩ | ⟨-, rfl⟩ | ⟨v, rfl⟩ | ⟨src, dst, v, -, hok, rfl⟩ | ⟨src, dst, f, -, rfl⟩ |
    ⟨src, v, -, hroom, rfl⟩ | ⟨r, -, -, rfl⟩ | ⟨b, o, -, -, ha, rfl⟩ | ⟨tok, a, -, hroom, rfl⟩ | ⟨-, -, rfl⟩
  case inr.inr.inr.inl => exact writeOperand_storesAtMostOnce (operandAddrOk_of_validate2 hok) v
  case inr.inr.inr.inr.inr.inl => exact pushWord_storesAtMostOnce hroom v
  case inr.inr.inr.inr.inr.inr.inr.inl => exact .inr ⟨operandAddr s b o, topOfStack s, ha, by simp⟩
  case inr.inr.inr.inr.inr.inr.inr.inr.inl => exact pushWord_storesAtMostOnce hroom _
  all_goals exact .inl (by simp)

/-- A step stores at most one word, at a valid address. -/
theorem step_next_storesAtMostOnce {s t : State} (h : step s = .next t) : StoresAtMostOnce s t := by
  obtain ⟨-, -, ⟨-, rfl⟩ | ⟨l, i, -, -, hexec⟩⟩ := step_next_cases h
  · exact .inl (State.halt_mem ..)
  · exact exec_next_storesAtMostOnce hexec

/-! ### The invariant -/

/-- The check of the loaded program reads the table and MEM_WORDS alone. -/
theorem SameProgram.programOk_eq {s t : State} (h : SameProgram s t) : t.programOk = s.programOk := by
  obtain ⟨himem, hcfg⟩ := h
  rw [State.programOk, State.programOk, State.instrCount, State.instrCount, himem, hcfg]

/-- At most one store, at a valid address, keeps data memory canonical and at valid addresses only. -/
theorem StoresAtMostOnce.mem_ok {s t : State} (h : StoresAtMostOnce s t) (hwf : s.mem.wf)
    (haddr : ∀ c ∈ s.mem, ValidAddr s.cfg (c.1 : Int)) :
    t.mem.wf ∧ ∀ c ∈ t.mem, ValidAddr s.cfg (c.1 : Int) := by
  obtain hmem | ⟨a, v, ha, hmem⟩ := h
  · rw [hmem]
    exact ⟨hwf, haddr⟩
  · rw [hmem]
    refine ⟨Memory.wf_write hwf a.toNat v, fun c hc => ?_⟩
    rcases Memory.mem_write hc with rfl | hold
    · rwa [Int.toNat_of_nonneg ha.1]
    · exact haddr c hold

/-- Settles O18: a step keeps program and parameters, and stores at most one word, at a valid address. -/
theorem everyStepKeepsTheInvariant : Obligations.EveryStepKeepsTheInvariant := by
  intro s t ⟨hcfg, hprog, hwf, haddr⟩ hstep
  have hsame := step_next_sameProgram hstep
  obtain ⟨hwf', haddr'⟩ := (step_next_storesAtMostOnce hstep).mem_ok hwf haddr
  refine ⟨?_, hsame.programOk_eq.trans hprog, hwf', ?_⟩
  · rwa [hsame.2]
  · rwa [hsame.2]

end Sys2Proof.Machine
end

/-! ## The text format (30_encoding.md) -/

section
namespace Sys2Proof

/-! ### Tokens (R63) -/

/-- Cutting undoes joining with single spaces. -/
theorem cutAtSpaces_intercalate (t : Token) (ts : List Token) (h : ∀ u ∈ t :: ts, ' ' ∉ u) :
    cutAtSpaces (List.intercalate [' '] (t :: ts)) = t :: ts := by
  induction ts generalizing t with
  | nil => rw [List.intercalate_singleton, cutAtSpaces_of_no_space (h t List.mem_cons_self)]
  | cons u us ih =>
    obtain ⟨ht, hus⟩ := List.forall_mem_cons.mp h
    rw [List.intercalate_cons_cons, List.append_assoc, List.singleton_append, cutAtSpaces_token_append _ ht, ih u hus]

theorem tokenise_eq_cutAtSpaces {l : Line} (h : l ≠ []) : tokenise l = cutAtSpaces l := by
  simp [tokenise, h]

/-- Settles O4: only the single empty token joins to the empty line, and every other line is cut back by
`cutAtSpaces_intercalate`. -/
theorem tokensAreThePiecesBetweenSpaces : Obligations.TokensAreThePiecesBetweenSpaces := by
  refine ⟨rfl, fun t ts h hne => ?_⟩
  have hcut := cutAtSpaces_intercalate t ts h
  have hline : List.intercalate [' '] (t :: ts) ≠ [] := by
    intro hnil
    rw [hnil] at hcut
    obtain ⟨rfl, rfl⟩ : [] = t ∧ [] = ts := List.cons.inj hcut
    simp at hne
  rw [tokenise_eq_cutAtSpaces hline, hcut]

theorem mem_cutAtSpaces_of_mem_tokenise {l : Line} {t : Token} (h : t ∈ tokenise l) : t ∈ cutAtSpaces l := by
  by_cases hl : l = []
  · subst hl
    exact absurd h List.not_mem_nil
  · rwa [← tokenise_eq_cutAtSpaces hl]

theorem tokenOk_of_lineOk {l : Line} (hl : lineOk l = true) {t : Token} (hsub : ∀ c ∈ t, c ∈ l) (hs : ' ' ∉ t) :
    tokenOk t = true := by
  obtain ⟨hprint, -⟩ := (lineOk_iff l).mp hl
  refine List.all_eq_true.mpr fun c hc => (isTokenChar_iff c).mpr ⟨?_, fun he => hs (he ▸ hc)⟩
  simpa [isPrintable] using hprint c (hsub c hc)

/-- The tokens of a well-formed line hold token characters only. -/
theorem tokenOk_of_mem_tokenise {l : Line} (hl : lineOk l = true) {t : Token} (ht : t ∈ tokenise l) :
    tokenOk t = true :=
  have hcut := mem_cutAtSpaces_of_mem_tokenise ht
  tokenOk_of_lineOk hl (mem_of_mem_cutAtSpaces l t hcut) (cutAtSpaces_no_space l t hcut)

/-! ### Register tokens (R67) -/

theorem Reg.mem_all (r : Reg) : r ∈ Reg.all := by cases r <;> decide

theorem Reg.token_injective : Function.Injective Reg.token := by
  intro r r'
  cases r <;> cases r' <;> decide

/-- A search of the six registers by a spelling that tells them apart. -/
theorem Reg.find?_spelling_eq_some_iff {spell : Reg → Token} (hinj : Function.Injective spell) (t : Token) (r : Reg) :
    Reg.all.find? (fun q => spell q == t) = some r ↔ t = spell r := by
  have hfound : ∀ {q : Reg}, Reg.all.find? (fun q => spell q == t) = some q → spell q = t := fun h => by
    simpa using List.find?_some h
  refine ⟨fun h => (hfound h).symm, fun ht => ?_⟩
  cases hf : Reg.all.find? (fun q => spell q == t) with
  | none => exact absurd (List.find?_eq_none.mp hf r r.mem_all) (by simp [ht])
  | some q => rw [hinj ((hfound hf).trans ht)]

theorem parseReg_eq_some_iff (t : Token) (r : Reg) : parseReg t = some r ↔ t = r.token :=
  Reg.find?_spelling_eq_some_iff Reg.token_injective t r

theorem Reg.head?_token (r : Reg) : r.token.head? = some '%' := by cases r <;> rfl

/-- The base register of a memory token in its parentheses (R69). -/
abbrev Reg.parenthesised (r : Reg) : Token := '(' :: (r.token ++ [')'])

theorem parseBase_eq_some_iff (t : Token) (r : Reg) : parseBase t = some r ↔ t = r.parenthesised :=
  Reg.find?_spelling_eq_some_iff (fun q q' h => Reg.token_injective (by simpa using h)) t r

/-! ### Memory tokens (R69) -/

theorem numeralOf_ne_nil {n : Token} {v : Word} (h : Machine.NumeralOf n v) : n ≠ [] := by
  obtain ⟨digits, hne, -, ⟨rfl, -⟩ | ⟨rfl, -⟩⟩ := h
  · exact hne
  · exact List.cons_ne_nil _ _

/-- A numeral holds digits and `-` alone. -/
theorem not_mem_of_numeralOf {n : Token} {v : Word} (h : Machine.NumeralOf n v) {c : Char}
    (hdigit : c.isDigit = false) (hminus : c ≠ '-') : c ∉ n := by
  obtain ⟨digits, -, hall, hn⟩ := h
  have hc : c ∉ digits := fun hmem => Bool.eq_false_iff.mp hdigit ((isDigit_iff c).mpr (hall c hmem))
  obtain ⟨rfl, -⟩ | ⟨rfl, -⟩ := hn
  · exact hc
  · simpa [hminus] using hc

/-- A memory token of a base register and an offset: an absent offset is 0 (R69). -/
def MemTokenOf (t : Token) (r : Reg) (off : Word) : Prop :=
  (t = r.parenthesised ∧ off = 0#32) ∨ ∃ n : Token, Machine.NumeralOf n off ∧ t = n ++ r.parenthesised

/-- A memory token begins with its parenthesis or with its numeral. -/
theorem MemTokenOf.head?_ne {t : Token} {r : Reg} {off : Word} (h : MemTokenOf t r off) {c : Char}
    (hdigit : c.isDigit = false) (hminus : c ≠ '-') (hparen : c ≠ '(') : t.head? ≠ some c := by
  obtain ⟨rfl, -⟩ | ⟨n, hn, rfl⟩ := h
  · simpa using hparen.symm
  · rw [List.head?_append_of_ne_nil n (numeralOf_ne_nil hn)]
    exact fun hc => not_mem_of_numeralOf hn hdigit hminus (List.mem_of_mem_head? hc)

theorem parseMem_append_parenthesised {n : Token} (hn : '(' ∉ n) (r : Reg) :
    parseMem (n ++ r.parenthesised) =
      if n.isEmpty then some (r, 0#32) else (parseNumber n).map (fun off => (r, off)) := by
  have hpos : ∀ c ∈ n, (c != '(') = true := fun c hc => bne_iff_ne.mpr fun he => hn (he ▸ hc)
  have hfront : (n ++ r.parenthesised).takeWhile (· != '(') = n := by
    rw [List.takeWhile_append_of_pos hpos, List.takeWhile_cons_of_neg (by decide), List.append_nil]
  have hback : (n ++ r.parenthesised).dropWhile (· != '(') = r.parenthesised := by
    rw [List.dropWhile_append_of_pos hpos, List.dropWhile_cons_of_neg (by decide)]
  simp only [parseMem, hfront, hback, (parseBase_eq_some_iff _ r).mpr rfl]
  cases parseNumber n <;> rfl

theorem parseMem_eq_some_iff (t : Token) (r : Reg) (off : Word) :
    parseMem t = some (r, off) ↔ MemTokenOf t r off := by
  constructor
  · intro h
    have hparen : '(' ∉ t.takeWhile (· != '(') := fun hc => by simpa using List.mem_takeWhile_imp hc
    cases hbase : parseBase (t.dropWhile (· != '(')) with
    | none => simp [parseMem, hbase] at h
    | some q =>
      obtain ⟨n, hn, rfl⟩ : ∃ n, '(' ∉ n ∧ t = n ++ q.parenthesised :=
        ⟨_, hparen, by rw [← (parseBase_eq_some_iff _ q).mp hbase, List.takeWhile_append_dropWhile]⟩
      rw [parseMem_append_parenthesised hn] at h
      split at h
      · next hempty =>
        obtain ⟨rfl, rfl⟩ : q = r ∧ 0#32 = off := by simpa using h
        exact .inl ⟨by rw [List.isEmpty_iff.mp hempty, List.nil_append], rfl⟩
      · obtain ⟨v, hv, heq⟩ := Option.map_eq_some_iff.mp h
        obtain ⟨rfl, rfl⟩ := Prod.mk.inj heq
        exact .inr ⟨n, (parseNumber_eq_some_iff n v).mp hv, rfl⟩
  · rintro (⟨rfl, rfl⟩ | ⟨n, hn, rfl⟩)
    · exact parseMem_append_parenthesised (n := []) List.not_mem_nil r
    · have hparen : '(' ∉ n := not_mem_of_numeralOf hn rfl (by decide)
      simp [parseMem_append_parenthesised hparen, numeralOf_ne_nil hn, (parseNumber_eq_some_iff n off).mpr hn]

/-! ### The Operand Resolver (R66 to R70) -/

@[simp] theorem resolve_reg_token (r : Reg) : resolve r.token = .reg r := by
  rw [resolve, (parseReg_eq_some_iff _ r).mpr rfl]

theorem parseReg_eq_none_of_head? {t : Token} (h : t.head? ≠ some '%') : parseReg t = none := by
  refine Option.eq_none_iff_forall_ne_some.mpr fun r hr => h ?_
  rw [(parseReg_eq_some_iff t r).mp hr, r.head?_token]

theorem resolve_dollar (n : Token) : resolve ('$' :: n) = (parseNumber n).elim .invalid .imm := by
  rw [resolve, parseReg_eq_none_of_head? (by simp)]
  cases h : parseNumber n <;> simp [h]

/-- The last test of `Resolve`. -/
theorem resolve_of_other {t : Token} (hreg : parseReg t = none) (hdollar : t.head? ≠ some '$') :
    resolve t = (parseMem t).elim .invalid (fun p => .mem p.1 p.2) := by
  rw [resolve, hreg]
  cases h : parseMem t <;> simp [hdollar]

/-- What `Resolve` answers: the first test that fits decides, and a token that fits none is Invalid. -/
theorem resolve_cases (t : Token) :
    (∃ r : Reg, resolve t = .reg r ∧ t = r.token) ∨
    (∃ v : Word, resolve t = .imm v ∧ ∃ n : Token, t = '$' :: n ∧ Machine.NumeralOf n v) ∨
    (∃ (r : Reg) (off : Word), resolve t = .mem r off ∧ MemTokenOf t r off) ∨ resolve t = .invalid := by
  cases hreg : parseReg t with
  | some r =>
    obtain rfl := (parseReg_eq_some_iff t r).mp hreg
    exact .inl ⟨r, resolve_reg_token r, rfl⟩
  | none =>
    by_cases hdollar : t.head? = some '$'
    · obtain ⟨n, rfl⟩ := List.head?_eq_some_iff.mp hdollar
      rw [resolve_dollar]
      cases hn : parseNumber n with
      | none => exact .inr (.inr (.inr rfl))
      | some v => exact .inr (.inl ⟨v, rfl, n, rfl, (parseNumber_eq_some_iff n v).mp hn⟩)
    · rw [resolve_of_other hreg hdollar]
      cases hm : parseMem t with
      | none => exact .inr (.inr (.inr rfl))
      | some p => exact .inr (.inr (.inl ⟨p.1, p.2, rfl, (parseMem_eq_some_iff t p.1 p.2).mp hm⟩))

theorem resolve_eq_reg_iff (t : Token) (r : Reg) : resolve t = .reg r ↔ t = r.token := by
  refine ⟨fun h => ?_, fun h => h ▸ resolve_reg_token r⟩
  rcases resolve_cases t with ⟨q, hq, ht⟩ | ⟨v, hv, -⟩ | ⟨b, off, hm, -⟩ | hinvalid
  · rwa [← Operand.reg.inj (hq.symm.trans h)]
  · exact absurd (hv.symm.trans h) (by simp)
  · exact absurd (hm.symm.trans h) (by simp)
  · exact absurd (hinvalid.symm.trans h) (by simp)

theorem resolve_eq_imm_iff (t : Token) (v : Word) :
    resolve t = .imm v ↔ ∃ n : Token, t = '$' :: n ∧ Machine.NumeralOf n v := by
  constructor
  · intro h
    rcases resolve_cases t with ⟨r, hr, -⟩ | ⟨w, hw, ht⟩ | ⟨b, off, hm, -⟩ | hinvalid
    · exact absurd (hr.symm.trans h) (by simp)
    · rwa [← Operand.imm.inj (hw.symm.trans h)]
    · exact absurd (hm.symm.trans h) (by simp)
    · exact absurd (hinvalid.symm.trans h) (by simp)
  · rintro ⟨n, rfl, hn⟩
    rw [resolve_dollar, (parseNumber_eq_some_iff n v).mpr hn, Option.elim_some]

/-- A memory token is told apart from a register and from an immediate by its first character. -/
theorem resolve_eq_mem_iff (t : Token) (r : Reg) (off : Word) : resolve t = .mem r off ↔ MemTokenOf t r off := by
  constructor
  · intro h
    rcases resolve_cases t with ⟨q, hq, -⟩ | ⟨v, hv, -⟩ | ⟨b, o, hm, ht⟩ | hinvalid
    · exact absurd (hq.symm.trans h) (by simp)
    · exact absurd (hv.symm.trans h) (by simp)
    · obtain ⟨rfl, rfl⟩ := Operand.mem.inj (hm.symm.trans h)
      exact ht
    · exact absurd (hinvalid.symm.trans h) (by simp)
  · intro h
    have hreg : parseReg t = none := parseReg_eq_none_of_head? (h.head?_ne rfl (by decide) (by decide))
    have hdollar : t.head? ≠ some '$' := h.head?_ne rfl (by decide) (by decide)
    rw [resolve_of_other hreg hdollar, (parseMem_eq_some_iff t r off).mpr h, Option.elim_some]

/-- Settles O5: each register has one token. -/
theorem exactlySixRegisterTokens : Obligations.ExactlySixRegisterTokens := by
  intro t r
  rw [resolve_eq_reg_iff]
  cases r <;> simp [Reg.token]

/-- Settles O6: a `$` token is Invalid where `parseNumber` finds no numeral. -/
theorem immediateTokenIsDollarAndNumeral : Obligations.ImmediateTokenIsDollarAndNumeral := by
  refine ⟨resolve_eq_imm_iff, fun n hnone => ?_⟩
  have hp : parseNumber n = none :=
    Option.eq_none_iff_forall_ne_some.mpr fun v hv => hnone v ((parseNumber_eq_some_iff n v).mp hv)
  rw [resolve_dollar, hp, Option.elim_none]

/-- Settles O7: `MemTokenOf` is the statement's description of a memory token. -/
theorem memoryTokenIsOffsetAndBase : Obligations.MemoryTokenIsOffsetAndBase :=
  resolve_eq_mem_iff

/-- The token the encoder writes for an operand resolves to it. -/
@[simp] theorem resolve_token (op : Operand) : resolve op.token = op := by
  cases op with
  | reg r => exact resolve_reg_token r
  | mem b off =>
    have hn := (parseNumber_eq_some_iff _ off).mp (parseNumber_printNumber off)
    exact (resolve_eq_mem_iff _ b off).mpr (.inr ⟨printNumber off, hn, by simp [Operand.token]⟩)
  | imm v => simp [Operand.token, resolve_dollar, parseNumber_printNumber]
  | invalid => rfl

/-! ### The end marker is no opcode line (00_scope.md R6) -/

theorem Config.endMarker_head?_ne {cfg : Config} (h : cfg.wf = true) : cfg.endMarker.head? ≠ some '.' := by
  simp only [Config.wf, Bool.and_eq_true, bne_iff_ne] at h
  obtain ⟨⟨-, hdot⟩, -⟩ := h
  exact hdot

theorem Config.endMarker_ne_text {cfg : Config} (h : cfg.wf = true) (m : Mnemonic) : cfg.endMarker ≠ m.text := by
  simp only [Config.wf, Bool.and_eq_true, Bool.not_eq_true', List.contains_eq_mem, decide_eq_false_iff_not] at h
  obtain ⟨-, hfree⟩ := h
  exact fun he => hfree (he ▸ List.mem_map_of_mem m.mem_all)

theorem tokenise_endMarker_ne {cfg : Config} (h : cfg.wf = true) (m : Mnemonic) (operands : List Token) :
    tokenise cfg.endMarker ≠ m.text :: operands := by
  intro ht
  have hne : cfg.endMarker ≠ [] := by
    intro he
    rw [he] at ht
    exact absurd ht.symm (List.cons_ne_nil _ _)
  rw [tokenise_of_token (tokenOk_no_space (Config.endMarker_tokenOk h)) hne] at ht
  exact Config.endMarker_ne_text h m (List.cons.inj ht).1

/-! ### Lines of each kind (R62, R64) -/

/-- An opcode line with no surplus token, under legal parameters. -/
theorem decode_opcode_ok {cfg : Config} (hcfg : cfg.wf = true) {l : Line} {m : Mnemonic} {operands : List Token}
    (hl : lineOk l = true) (ht : tokenise l = m.text :: operands) (hm : m = .subl → cfg.sublImplemented = true)
    (harity : operands.length ≤ m.arity) :
    decode cfg l = .ok (m.build (operands.getD 0 []) (operands.getD 1 [])) := by
  have he : l ≠ cfg.endMarker := fun he => tokenise_endMarker_ne hcfg m operands (he ▸ ht)
  rw [decode_opcode hl he ht hm, decodeOpcodeLine, if_neg (Nat.not_lt.mpr harity)]

section
variable {cfg : Config} (hcfg : cfg.wf = true) (m : Mnemonic) {t1 t2 : Token}
include hcfg

theorem decode_two_operands (h1 : tokenOk t1 = true) (hn1 : t1 ≠ []) (h2 : tokenOk t2 = true) (hn2 : t2 ≠ [])
    (hm : m = .subl → cfg.sublImplemented = true := by nofun) (harity : 2 ≤ m.arity := by decide) :
    decode cfg (m.text ++ ' ' :: (t1 ++ ' ' :: t2)) = .ok (m.build t1 t2) :=
  have hoperands := lineOk_cons_token h1 hn1 (lineOk_of_token h2) hn2
  decode_opcode_ok hcfg (lineOk_cons_token m.tokenOk_text m.text_ne_nil hoperands (by simp))
    (tokenise_three (tokenOk_no_space m.tokenOk_text) (tokenOk_no_space h1) (tokenOk_no_space h2)) hm harity

theorem decode_one_operand (h1 : tokenOk t1 = true) (hn1 : t1 ≠ [])
    (hm : m = .subl → cfg.sublImplemented = true := by nofun) (harity : 1 ≤ m.arity := by decide) :
    decode cfg (m.text ++ ' ' :: t1) = .ok (m.build t1 []) :=
  decode_opcode_ok hcfg (lineOk_cons_token m.tokenOk_text m.text_ne_nil (lineOk_of_token h1) hn1)
    (tokenise_two (tokenOk_no_space m.tokenOk_text) (tokenOk_no_space h1)) hm harity

theorem decode_no_operand (hm : m = .subl → cfg.sublImplemented = true := by nofun) :
    decode cfg m.text = .ok (m.build [] []) :=
  decode_opcode_ok hcfg (lineOk_of_token m.tokenOk_text)
    (tokenise_of_token (tokenOk_no_space m.tokenOk_text) m.text_ne_nil) hm (Nat.zero_le _)

/-! ### Decoding the encoder's lines -/

theorem decode_encodeTwo (src dst : Operand) (hm : m = .subl → cfg.sublImplemented = true := by nofun)
    (harity : 2 ≤ m.arity := by decide) : decode cfg (encodeTwo m src dst) = .ok (m.build src.token dst.token) := by
  have hline : encodeTwo m src dst = m.text ++ ' ' :: (src.token ++ ' ' :: dst.token) := by simp [encodeTwo]
  rw [hline]
  exact decode_two_operands hcfg m src.tokenOk_token src.token_ne_nil dst.tokenOk_token dst.token_ne_nil hm harity

theorem decode_encodeOne (op : Operand) (hm : m = .subl → cfg.sublImplemented = true := by nofun)
    (harity : 1 ≤ m.arity := by decide) : decode cfg (encodeOne m op) = .ok (m.build op.token []) :=
  decode_one_operand hcfg m op.tokenOk_token op.token_ne_nil hm harity

theorem decode_encodeLabelled {target : Token} (h : tokenOk target = true)
    (hm : m = .subl → cfg.sublImplemented = true := by nofun) (harity : 1 ≤ m.arity := by decide) :
    decode cfg (encodeLabelled m target) = .ok (m.build target []) := by
  by_cases hn : target = []
  · subst hn
    exact decode_no_operand hcfg m hm
  · simpa [encodeLabelled, hn] using decode_one_operand hcfg m h hn hm harity

theorem decode_endMarker : decode cfg cfg.endMarker = .ok .endMarker := by
  simp [decode, lineOk_of_token (Config.endMarker_tokenOk hcfg)]

theorem decode_label {text : Line} (h : labelTextOk text = true) : decode cfg text = .ok (.label text) := by
  obtain ⟨htok, hdot⟩ : tokenOk text = true ∧ text.head? = some '.' := by simpa [labelTextOk] using h
  have hs := tokenOk_no_space htok
  have hn : text ≠ [] := fun he => by simp [he] at hdot
  have he : text ≠ cfg.endMarker := fun he => Config.endMarker_head?_ne hcfg (he ▸ hdot)
  have hopcode : ∀ (m : Mnemonic) (operands : List Token), tokenise text = m.text :: operands →
      m = .subl ∧ cfg.sublImplemented = false := by
    intro m operands ht
    rw [tokenise_of_token hs hn] at ht
    rw [(List.cons.inj ht).1] at hdot
    cases m <;> exact absurd hdot (by decide)
  rw [decode_other (lineOk_of_token htok) he hopcode]
  simp [decodeOtherLine, isLabelLine, hdot, hs]

end

/-- An unrecognised line is what no other kind of line matches (R62, R73). -/
theorem unrecognisedTextOk_iff (cfg : Config) (l : Line) :
    unrecognisedTextOk cfg l = true ↔ lineOk l = true ∧ l ≠ cfg.endMarker ∧ isLabelLine l = false ∧
      ∀ (m : Mnemonic) (operands : List Token), tokenise l = m.text :: operands →
        m = .subl ∧ cfg.sublImplemented = false := by
  have hnone : ∀ t0 : Token, findMnemonic cfg t0 = none ↔
      ∀ m : Mnemonic, t0 = m.text → m = .subl ∧ cfg.sublImplemented = false := by
    intro t0
    simp [Option.eq_none_iff_forall_ne_some, findMnemonic_eq_some_iff]
  simp only [unrecognisedTextOk, Bool.and_eq_true, bne_iff_ne, Bool.not_eq_true', and_assoc]
  refine and_congr_right fun _ => and_congr_right fun _ => and_congr_right fun _ => ?_
  cases tokenise l with
  | nil => simp
  | cons t0 operands => simp [hnone]

theorem decode_unrecognised {cfg : Config} {text : Line} (h : unrecognisedTextOk cfg text = true) :
    decode cfg text = .ok (.unrecognised text) := by
  obtain ⟨hl, he, hlabel, hopcode⟩ := (unrecognisedTextOk_iff cfg text).mp h
  rw [decode_other hl he hopcode, decodeOtherLine, hlabel, if_neg Bool.false_ne_true]

/-- Settles O1: each format's line is cut back into its tokens, and each operand's token resolves to the operand. -/
theorem decodeGivesBackTheEncodedInstruction : Obligations.DecodeGivesBackTheEncodedInstruction := by
  intro cfg i hcfg hi
  cases i with
  | movl src dst => simpa [encode, Mnemonic.build] using decode_encodeTwo hcfg .movl src dst
  | addl src dst => simpa [encode, Mnemonic.build] using decode_encodeTwo hcfg .addl src dst
  | subl src dst => simpa [encode, Mnemonic.build] using decode_encodeTwo hcfg .subl src dst (fun _ => hi)
  | cmpl src dst => simpa [encode, Mnemonic.build] using decode_encodeTwo hcfg .cmpl src dst
  | pushl src => simpa [encode, Mnemonic.build] using decode_encodeOne hcfg .pushl src
  | popl dst => simpa [encode, Mnemonic.build] using decode_encodeOne hcfg .popl dst
  | jmp target => exact decode_encodeLabelled hcfg .jmp hi
  | je target => exact decode_encodeLabelled hcfg .je hi
  | jne target => exact decode_encodeLabelled hcfg .jne hi
  | jl target => exact decode_encodeLabelled hcfg .jl hi
  | jg target => exact decode_encodeLabelled hcfg .jg hi
  | call target => exact decode_encodeLabelled hcfg .call hi
  | ret => exact decode_no_operand hcfg .ret
  | endMarker => exact decode_endMarker hcfg
  | label text => exact decode_label hcfg hi
  | unrecognised text => exact decode_unrecognised hi

/-- Settles O8: three, two and one tokens; a missing operand token is the empty one, which resolves to Invalid. -/
theorem opcodeLineDecodesByItsFormat : Obligations.OpcodeLineDecodesByItsFormat := by
  refine ⟨fun cfg t1 t2 hcfg h1 hn1 h2 hn2 => ?_, fun cfg t1 hcfg h1 hn1 => ?_, fun cfg hcfg => ?_⟩
  · exact ⟨decode_two_operands hcfg .movl h1 hn1 h2 hn2, decode_two_operands hcfg .addl h1 hn1 h2 hn2,
      fun hs => decode_two_operands hcfg .subl h1 hn1 h2 hn2 (fun _ => hs),
      decode_two_operands hcfg .cmpl h1 hn1 h2 hn2, decode_one_operand hcfg .pushl h1 hn1,
      decode_one_operand hcfg .popl h1 hn1, decode_one_operand hcfg .jmp h1 hn1, decode_one_operand hcfg .je h1 hn1,
      decode_one_operand hcfg .jne h1 hn1, decode_one_operand hcfg .jl h1 hn1, decode_one_operand hcfg .jg h1 hn1,
      decode_one_operand hcfg .call h1 hn1, decode_no_operand hcfg .ret⟩
  · exact ⟨decode_one_operand hcfg .movl h1 hn1, decode_one_operand hcfg .addl h1 hn1,
      fun hs => decode_one_operand hcfg .subl h1 hn1 (fun _ => hs), decode_one_operand hcfg .cmpl h1 hn1⟩
  · exact ⟨decode_no_operand hcfg .movl, decode_no_operand hcfg .addl,
      fun hs => decode_no_operand hcfg .subl (fun _ => hs), decode_no_operand hcfg .cmpl,
      decode_no_operand hcfg .pushl, decode_no_operand hcfg .popl, decode_no_operand hcfg .jmp,
      decode_no_operand hcfg .je, decode_no_operand hcfg .jne, decode_no_operand hcfg .jl, decode_no_operand hcfg .jg,
      decode_no_operand hcfg .call⟩

/-! ### What the decoder accepts and rejects (R61, R74) -/

theorem decodeOpcodeLine_eq_ok_iff (m : Mnemonic) (operands : List Token) (i : Instr) :
    decodeOpcodeLine m operands = .ok i ↔
      operands.length ≤ m.arity ∧ m.build (operands.getD 0 []) (operands.getD 1 []) = i := by
  unfold decodeOpcodeLine
  split
  · next h => simp [Nat.not_le.mpr h]
  · next h => simp [Nat.not_lt.mp h]

theorem decodeOpcodeLine_eq_error_iff (m : Mnemonic) (operands : List Token) (e : DecodeError) :
    decodeOpcodeLine m operands = .error e ↔ m.arity < operands.length ∧ e = .surplusTokens := by
  unfold decodeOpcodeLine
  split
  · next h => simp [h, eq_comm]
  · next h => simp [h]

/-- A mnemonic in the opcode map and a label token of token characters make a well-formed instruction. -/
theorem Mnemonic.build_wf {cfg : Config} {m : Mnemonic} (hm : m = .subl → cfg.sublImplemented = true) {t1 : Token}
    (h1 : tokenOk t1 = true) (t2 : Token) : (m.build t1 t2).wf cfg = true := by
  cases m with
  | subl => exact hm rfl
  | jmp | je | jne | jl | jg | call => exact h1
  | movl | addl | cmpl | pushl | popl | ret => rfl

theorem tokenOk_getD {operands : List Token} (h : ∀ t ∈ operands, tokenOk t = true) (k : Nat) :
    tokenOk (operands.getD k []) = true := by
  rw [List.getD_eq_getElem?_getD]
  cases hk : operands[k]? with
  | none => rfl
  | some t => exact h t (List.mem_of_getElem? hk)

/-- A label line that is well formed is one token (R64, R71). -/
theorem labelTextOk_of_isLabelLine {l : Line} (hl : lineOk l = true) (h : isLabelLine l = true) :
    labelTextOk l = true := by
  obtain ⟨hdot, hs⟩ : l.head? = some '.' ∧ ' ' ∉ l := by simpa [isLabelLine] using h
  simp [labelTextOk, tokenOk_of_lineOk hl (fun _ hc => hc) hs, hdot]

/-- Settles O2: one case for each kind of line. -/
theorem decodedInstructionIsWellFormed : Obligations.DecodedInstructionIsWellFormed := by
  intro cfg l i h
  rcases decode_cases cfg l with ⟨-, hd⟩ | ⟨-, -, hd⟩ | ⟨hl, -, m, operands, ht, hm, hd⟩ | ⟨hl, he, hn, hd⟩
  case inl => simp [hd] at h
  case inr.inl =>
    obtain rfl : .endMarker = i := Except.ok.inj (hd.symm.trans h)
    rfl
  case inr.inr.inl =>
    obtain ⟨-, rfl⟩ := (decodeOpcodeLine_eq_ok_iff m operands i).mp (hd.symm.trans h)
    have hoperands : ∀ t ∈ operands, tokenOk t = true := fun t hmem =>
      tokenOk_of_mem_tokenise hl (by rw [ht]; exact List.mem_cons_of_mem _ hmem)
    exact Mnemonic.build_wf hm (tokenOk_getD hoperands 0) _
  case inr.inr.inr =>
    obtain rfl : decodeOtherLine l = i := Except.ok.inj (hd.symm.trans h)
    cases hlabel : isLabelLine l with
    | true => simpa [decodeOtherLine, hlabel, Instr.wf] using labelTextOk_of_isLabelLine hl hlabel
    | false =>
      simpa [decodeOtherLine, hlabel, Instr.wf] using (unrecognisedTextOk_iff cfg l).mpr ⟨hl, he, hlabel, hn⟩

/-- Only an ill-formed line is rejected as one (R61, U6). -/
theorem decode_eq_illFormedLine_iff (cfg : Config) (l : Line) :
    decode cfg l = .error .illFormedLine ↔ lineOk l = false := by
  rcases decode_cases cfg l with ⟨hl, hd⟩ | ⟨hl, -, hd⟩ | ⟨hl, -, m, operands, -, -, hd⟩ | ⟨hl, -, -, hd⟩
  case inr.inr.inl => simp [hd, hl, decodeOpcodeLine_eq_error_iff]
  all_goals simp [hd, hl]

/-- Only an opcode line with more operand tokens than its format takes is rejected as surplus (R74, D13). -/
theorem decode_eq_surplusTokens_iff (cfg : Config) (l : Line) :
    decode cfg l = .error .surplusTokens ↔ lineOk l = true ∧ l ≠ cfg.endMarker ∧
      ∃ (m : Mnemonic) (operands : List Token), tokenise l = m.text :: operands ∧
        (m = .subl → cfg.sublImplemented = true) ∧ m.arity < operands.length := by
  constructor
  · intro h
    rcases decode_cases cfg l with ⟨-, hd⟩ | ⟨-, -, hd⟩ | ⟨hl, he, m, operands, ht, hm, hd⟩ | ⟨-, -, -, hd⟩
    case inr.inr.inl =>
      obtain ⟨harity, -⟩ := (decodeOpcodeLine_eq_error_iff m operands _).mp (hd.symm.trans h)
      exact ⟨hl, he, m, operands, ht, hm, harity⟩
    all_goals simp [hd] at h
  · rintro ⟨hl, he, m, operands, ht, hm, harity⟩
    rw [decode_opcode hl he ht hm, decodeOpcodeLine_eq_error_iff]
    exact ⟨harity, rfl⟩

theorem Mnemonic.text_eq_subl_iff (m : Mnemonic) : m.text = ['S', 'U', 'B', 'L'] ↔ m = .subl :=
  ⟨fun h => Mnemonic.text_injective m .subl h, fun h => h ▸ rfl⟩

/-- Settles O3: the written-out formats are the mnemonics' texts and arities. -/
theorem decodeRejectsOnlyIllFormedAndSurplus : Obligations.DecodeRejectsOnlyIllFormedAndSurplus := by
  intro cfg l
  rw [decode_eq_illFormedLine_iff, decode_eq_surplusTokens_iff, ← lineOk_iff, Bool.not_eq_true]
  refine ⟨Iff.rfl, and_congr_right fun _ => and_congr_right fun _ => ⟨?_, ?_⟩⟩
  · rintro ⟨m, operands, ht, hm, harity⟩
    exact ⟨m.text, operands, m.arity, ht, (mem_opcodeFormats_iff _ _).mpr ⟨m, rfl, rfl⟩,
      fun h => hm (m.text_eq_subl_iff.mp h), harity⟩
  · rintro ⟨t0, operands, count, ht, hformat, hm, harity⟩
    obtain ⟨m, rfl, rfl⟩ := (mem_opcodeFormats_iff t0 count).mp hformat
    exact ⟨m, operands, ht, fun h => hm (m.text_eq_subl_iff.mpr h), harity⟩

/-- Settles O9: the decoder is run on each line. -/
theorem writtenOutLinesDecode : Obligations.WrittenOutLinesDecode :=
  ⟨rfl, rfl, rfl, rfl, rfl, rfl, rfl, rfl⟩

end Sys2Proof

namespace Sys2Proof.Machine

/-! ### Situations without a meaning (R61, R74; 43_sequencer.md R141) -/

theorem State.programOk_eq_false_iff (s : State) :
    s.programOk = false ↔ (∃ l ∈ s.imem, lineOk l = false) ∨ s.cfg.memWords < s.imem.length := by
  rw [State.programOk, Bool.and_eq_false_iff, List.all_eq_false, decide_eq_false_iff_not, Nat.not_le, State.instrCount]
  simp only [Bool.not_eq_true]

/-- An aligned EIP that names a slot fetches the slot's line (43_sequencer.md R141). -/
theorem State.fetch_eq_line {s : State} {l : Line} (h0 : 0 ≤ s.pc) (h4 : s.pc % 4 = 0)
    (hl : s.imem[(s.pc / 4).toNat]? = some l) : s.fetch = .line l := by
  obtain ⟨hlt, -⟩ := List.getElem?_eq_some_iff.mp hl
  have hin : ¬ (s.pc < 0 ∨ (s.instrCount : Int) * 4 ≤ s.pc) := by
    unfold State.instrCount
    omega
  rw [State.fetch, if_neg hin, if_neg (not_not.mpr h4), List.getD_eq_getElem?_getD, hl, Option.getD_some]

/-- An EIP inside the program that is no multiple of 4 fetches nothing (43_sequencer.md R141, D18). -/
theorem State.fetch_eq_misaligned {s : State} (h0 : 0 ≤ s.pc) (hin : s.pc < (s.imem.length : Int) * 4)
    (h4 : s.pc % 4 ≠ 0) : s.fetch = .misaligned := by
  have hrange : ¬ (s.pc < 0 ∨ (s.instrCount : Int) * 4 ≤ s.pc) := by
    unfold State.instrCount
    omega
  rw [State.fetch, if_neg hrange, if_pos h4]

section
variable {s : State} (hrun : s.status = .running)
include hrun

theorem step_of_illFormedProgram (hprog : s.programOk = false) : step s = .refused .illFormedProgram := by
  simp [step, hrun, stepRunning, hprog]

theorem step_of_misaligned (hprog : s.programOk = true) (hfetch : s.fetch = .misaligned) :
    step s = .refused .misalignedFetch := by
  simp [step, hrun, stepRunning, hprog, hfetch]

theorem step_of_line (hprog : s.programOk = true) {l : Line} (hfetch : s.fetch = .line l) :
    step s = stepLine s l := by
  simp [step, hrun, stepRunning, hprog, hfetch]

end

/-- Settles O12: the check of the program, the fetch and the decoder each refuse their own situation. -/
theorem situationsWithoutMeaningAreRefused : Obligations.SituationsWithoutMeaningAreRefused := by
  intro s hrun
  refine ⟨fun hbad => ?_, fun hprog h0 hin h4 => ?_, fun l hprog h0 h4 hl hd => ?_⟩
  · exact step_of_illFormedProgram hrun (s.programOk_eq_false_iff.mpr hbad)
  · exact step_of_misaligned hrun hprog (State.fetch_eq_misaligned h0 hin h4)
  · rw [step_of_line hrun hprog (State.fetch_eq_line h0 h4 hl), stepLine, hd]

end Sys2Proof.Machine
end

/-! ## MOVL, ADDL, SUBL, CMPL (40_alu.md) -/

section
namespace Sys2Proof.Machine

/-! ### The two-operand form (R90, 43_sequencer.md R143) -/

/-- A line of `instr` checks its operands by R90 and, when they pass, leaves `result` before EIP advances. -/
def Validates (instr : Operand → Operand → Instr) (result : Operand → Operand → State → State) : Prop :=
  ∀ (src dst : Operand) (s : State),
    exec (instr src dst) s = afterData s (validated src dst s (result src dst s))

/-- The destination receives `f` of its old value and the source's: the shape of MOVL, ADDL and SUBL. -/
def combineInto (f : Word → Word → Word) (src dst : Operand) (s : State) : State :=
  writeOperand s dst (f (readOperand s dst) (readOperand s src))

/-- The flag receives the order of the destination's value against the source's (R96). -/
def compareOperands (src dst : Operand) (s : State) : State :=
  s.setFlag (compareFlag (readOperand s dst) (readOperand s src))

theorem validates_movl : Validates .movl (combineInto fun _ b => b) :=
  fun src dst s => congrArg (afterData s) (runMovl_eq_validated src dst s)

theorem validates_addl : Validates .addl (combineInto fun a b => wrap32 (a.toInt + b.toInt)) :=
  fun src dst s => congrArg (afterData s) (runAddl_eq_validated src dst s)

theorem validates_subl : Validates .subl (combineInto fun a b => wrap32 (a.toInt - b.toInt)) :=
  fun src dst s => congrArg (afterData s) (runSubl_eq_validated src dst s)

theorem validates_cmpl : Validates .cmpl compareOperands :=
  fun src dst s => congrArg (afterData s) (runCmpl_eq_validated src dst s)

theorem validated_of_some {src dst : Operand} {s : State} {c : ErrorCode} (h : validate2 src dst s = some c)
    (t : State) : validated src dst s t = .raised c := by
  rw [validated, h]

theorem validated_of_none {src dst : Operand} {s : State} (h : validate2 src dst s = none) (t : State) :
    validated src dst s t = .success t := by
  rw [validated, h]

/-- The faults of a two-operand instruction come from its validation alone, whatever it computes. -/
theorem Validates.faults {instr : Operand → Operand → Instr} {result : Operand → Operand → State → State}
    (h : Validates instr result) : TwoOperandFaults instr := by
  intro s src dst
  refine ⟨fun hill => ?_, fun hill hbad => ?_⟩
  · rw [h, validated_of_some (validate2_of_illTyped hill)]
    rfl
  · rw [h, validated_of_some (validate2_of_badAddress hill hbad)]
    rfl

/-- On a legal pair the instruction leaves its result with EIP advanced. -/
theorem Validates.exec_eq {instr : Operand → Operand → Instr} {result : Operand → Operand → State → State}
    (h : Validates instr result) {s : State} {src dst : Operand} {v : Word} {p : Place}
    (hs : operandValue s src = some v) (hd : operandPlace s dst = some p) (hm : ¬ BothMemory src dst) :
    exec (instr src dst) s = .next (result src dst s).advance := by
  rw [h, validated_of_none (validate2_of_ok hs hd hm)]
  rfl

/-! ### Instructions that write their destination (R93 to R95) -/

/-- `WriteOp` to a place and then the advance of EIP: EIP is read after the write, which may have named it. -/
theorem writeOperand_advance_wroteOnly {s : State} {dst : Operand} {p : Place} (hd : operandPlace s dst = some p)
    (v : Word) : WroteOnly s (writeOperand s dst v).advance p v := by
  obtain ⟨hreg, hmem⟩ := writeOperand_of_place hd v
  refine ⟨fun r hr => ?_, ?_, hmem, by simp [SameControl]⟩
  · rw [State.advance_reg, if_neg hr, hreg]
  · rw [State.advance_reg, if_pos rfl, hreg]

theorem Validates.wroteOnly {instr : Operand → Operand → Instr} {f : Word → Word → Word}
    (h : Validates instr (combineInto f)) (s : State) (src dst : Operand) (v : Word) (p : Place)
    (hs : operandValue s src = some v) (hd : operandPlace s dst = some p) (hm : ¬ BothMemory src dst) :
    ∃ t, exec (instr src dst) s = .next t ∧ WroteOnly s t p (f (p.value s) v) := by
  obtain ⟨-, -, hsrc⟩ := readOperand_of_value hs
  obtain ⟨-, -, -, hdst⟩ := readOperand_of_place hd
  refine ⟨_, h.exec_eq hs hd hm, ?_⟩
  rw [combineInto, hsrc, hdst]
  exact writeOperand_advance_wroteOnly hd _

/-- Settles O31: MOVL combines by taking the source's value. -/
theorem movlCopiesTheSource : Obligations.MovlCopiesTheSource :=
  ⟨validates_movl.wroteOnly, validates_movl.faults⟩

/-- Settles O32: ADDL combines by the wrapped sum. -/
theorem addlAddsIntoTheDestination : Obligations.AddlAddsIntoTheDestination :=
  ⟨validates_addl.wroteOnly, validates_addl.faults⟩

/-- Settles O33: SUBL combines by the wrapped difference. -/
theorem sublSubtractsFromTheDestination : Obligations.SublSubtractsFromTheDestination :=
  ⟨validates_subl.wroteOnly, validates_subl.faults⟩

/-! ### The comparison (R96, R99) -/

/-- The flag's number is the sign of the exact difference, which no wrap can spoil (R97). -/
theorem compareFlag_value (a b : Word) : (compareFlag a b).value = (a.toInt - b.toInt).sign := by
  rw [compareFlag]
  split_ifs with hlt heq
  · exact (Int.sign_eq_neg_one_of_neg (by omega)).symm
  · exact (Int.sign_eq_zero_iff_zero.mpr (by omega)).symm
  · exact (Int.sign_eq_one_of_pos (by omega)).symm

/-- Comparing in the other order gives the opposite flag. -/
theorem compareFlag_value_swap (a b : Word) : (compareFlag b a).value = -(compareFlag a b).value := by
  rw [compareFlag_value, compareFlag_value, ← Int.sign_neg, neg_sub]

theorem compareFlag_value_eq_zero_iff (a b : Word) : (compareFlag a b).value = 0 ↔ a = b := by
  rw [compareFlag_value, Int.sign_eq_zero_iff_zero, sub_eq_zero, BitVec.toInt_inj]

/-- CMPL on a legal pair: the flag is set, EIP advances, and nothing else changes. -/
theorem exec_cmpl_eq {s : State} {src dst : Operand} {v : Word} {p : Place} (hs : operandValue s src = some v)
    (hd : operandPlace s dst = some p) (hm : ¬ BothMemory src dst) :
    exec (.cmpl src dst) s = .next { s.withEip (wrap32 (s.pc + 4)) with flag := compareFlag (p.value s) v } := by
  obtain ⟨-, -, hsrc⟩ := readOperand_of_value hs
  obtain ⟨-, -, -, hdst⟩ := readOperand_of_place hd
  rw [validates_cmpl.exec_eq hs hd hm, compareOperands, hsrc, hdst]
  rfl

/-- Settles O34: the flag is the sign of the exact difference. -/
theorem cmplSetsTheFlagOnly : Obligations.CmplSetsTheFlagOnly := by
  refine ⟨fun s src dst v p hs hd hm => ⟨_, exec_cmpl_eq hs hd hm, fun hlt => ?_, fun heq => ?_, fun hgt => ?_, rfl⟩,
    validates_cmpl.faults⟩
  · exact (compareFlag_value _ _).trans (Int.sign_eq_neg_one_of_neg (Int.sub_neg_of_lt hlt))
  · exact (compareFlag_value _ _).trans (Int.sign_eq_zero_iff_zero.mpr (sub_eq_zero.mpr heq))
  · exact (compareFlag_value _ _).trans (Int.sign_eq_one_of_pos (Int.sub_pos_of_lt hgt))

/-- An operand that names a place is also a source, with the value the place holds. -/
theorem operandValue_of_place {s : State} {op : Operand} {p : Place} (h : operandPlace s op = some p) :
    operandValue s op = some (p.value s) := by
  cases op with
  | reg r =>
    obtain rfl : Place.register r = p := by simpa [operandPlace] using h
    rfl
  | imm w => simp [operandPlace] at h
  | mem b o =>
    obtain ⟨hvalid, hp⟩ := Option.ite_none_right_eq_some.mp h
    obtain rfl : Place.word _ = p := Option.some.inj hp
    exact if_pos hvalid
  | invalid => simp [operandPlace] at h

/-- Settles O35: each operand serves as source and as destination, so both orders compare the same two values. -/
theorem swappedCompareGivesTheOppositeFlag : Obligations.SwappedCompareGivesTheOppositeFlag := by
  intro s a b pa pb ha hb hm
  have hm' : ¬ BothMemory b a := fun ⟨hb, ha⟩ => hm ⟨ha, hb⟩
  refine ⟨_, _, exec_cmpl_eq (operandValue_of_place ha) hb hm, exec_cmpl_eq (operandValue_of_place hb) ha hm',
    compareFlag_value_swap _ _, ?_⟩
  rw [compareFlag_value_eq_zero_iff, eq_comm]

end Sys2Proof.Machine
end

/-! ## PUSHL, POPL (41_stack.md) -/

section
namespace Sys2Proof.Machine

/-- The state a PUSHL line leaves that has pushed `v`. -/
def afterPush (s : State) (v : Word) : State := (pushWord s v).advance

/-- The state a POPL line leaves that has popped into the register `r`. -/
def afterPop (s : State) (r : Reg) : State := (raiseEsp (s.setReg r (topOfStack s))).advance

/-! ### The executors where they succeed and where they fault (R111, R112) -/

/-- PUSHL with a value to push and room for it. -/
theorem exec_pushl_eq {s : State} {src : Operand} {v : Word} (hv : operandValue s src = some v) (hroom : PushRoom s) :
    exec (.pushl src) s = .next (afterPush s v) := by
  obtain ⟨hsrc, haddr, hread⟩ := readOperand_of_value hv
  simp [exec, execPushl, runPushl, afterData, afterPush, hsrc, haddr, hread, (pushAllowed_iff s).mpr hroom]

/-- PUSHL's checks after the type check: the source's address, then room. -/
theorem exec_pushl_memoryError {s : State} {src : Operand} (hsrc : src ≠ .invalid)
    (hbad : BadAddress s src ∨ ¬ PushRoom s) : exec (.pushl src) s = .next (s.enterFault .memoryError) := by
  rw [← operandAddrOk_eq_false_iff, ← pushAllowed_iff, Bool.not_eq_true] at hbad
  simp only [exec, execPushl, runPushl, if_neg hsrc]
  rcases hbad with haddr | hroom
  · simp [haddr, afterData]
  · simp [hroom, afterData]

/-- POPL to a register with a word to pop. -/
theorem exec_popl_reg_eq {s : State} (r : Reg) (hroom : PopRoom s) :
    exec (.popl (.reg r)) s = .next (afterPop s r) := by
  simp [exec, execPopl, runPopl, afterData, afterPop, (popAllowed_iff s).mpr hroom]

/-- POPL to memory with a word to pop and a valid destination. -/
theorem exec_popl_mem_eq {s : State} {base : Reg} {off : Word} (hroom : PopRoom s)
    (haddr : ValidAddr s.cfg (operandAddr s base off)) :
    exec (.popl (.mem base off)) s = .next (raiseEsp (s.store (operandAddr s base off) (topOfStack s))).advance := by
  simp [exec, execPopl, runPopl, afterData, operandAddrOk, (popAllowed_iff s).mpr hroom, (validAddr_iff _ _).mpr haddr]

/-- POPL's checks after the type check: a word to pop, then the destination's address. -/
theorem exec_popl_memoryError {s : State} {dst : Operand} (hinv : dst ≠ .invalid) (himm : ∀ v, dst ≠ .imm v)
    (hbad : ¬ PopRoom s ∨ BadAddress s dst) : exec (.popl dst) s = .next (s.enterFault .memoryError) := by
  rw [← popAllowed_iff, Bool.not_eq_true, ← operandAddrOk_eq_false_iff] at hbad
  cases dst with
  | invalid => exact absurd rfl hinv
  | imm v => exact absurd rfl (himm v)
  | reg r =>
    have hpop : popAllowed s = false := hbad.resolve_right (by simp [operandAddrOk])
    simp [exec, execPopl, runPopl, afterData, hpop]
  | mem base off =>
    simp only [exec, execPopl, runPopl]
    rcases hbad with hpop | haddr
    · simp [hpop, afterData]
    · simp [haddr, afterData]

/-- Settles O37: the type check comes first. -/
theorem pushlFaults : Obligations.PushlFaults :=
  fun _ _ => ⟨rfl, exec_pushl_memoryError⟩

/-- Settles O40: the type check comes first. -/
theorem poplFaults : Obligations.PoplFaults := by
  refine fun s dst => ⟨?_, exec_popl_memoryError⟩
  rintro (rfl | ⟨v, rfl⟩)
  · rfl
  · rfl

/-! ### What a push and a pop leave -/

/-- With room for a push the exact new address fits ESP. -/
theorem wrap32_pushAddr_toInt {s : State} (hroom : PushRoom s) :
    (wrap32 (pushAddr s)).toInt = (s.reg .esp).toInt - 4 := by
  obtain ⟨-, hguard⟩ := hroom
  have hrange := word_toInt_range (s.reg .esp)
  exact wrap32_toInt_of_range (by rw [pushAddr]; omega) (by rw [pushAddr]; omega)

/-- A push stores its word at the exact ESP - 4 and nowhere else. -/
theorem pushWord_storedOnly (s : State) (v : Word) :
    StoredOnly s (pushWord s v) ((s.reg .esp).toInt - 4).toNat v := by
  intro b
  rw [pushWord_mem, Memory.read_write, pushAddr]

theorem afterPush_storedOnly (s : State) (v : Word) :
    StoredOnly s (afterPush s v) ((s.reg .esp).toInt - 4).toNat v := pushWord_storedOnly s v

theorem afterPush_esp_toInt {s : State} (hroom : PushRoom s) (v : Word) :
    ((afterPush s v).reg .esp).toInt = (s.reg .esp).toInt - 4 := by
  simpa [afterPush] using wrap32_pushAddr_toInt hroom

theorem afterPush_reg_of_ne (s : State) (v : Word) {r : Reg} (hesp : r ≠ .esp) (heip : r ≠ .eip) :
    (afterPush s v).reg r = s.reg r := by
  simp [afterPush, hesp, heip]

theorem afterPush_sameControl (s : State) (v : Word) : SameControl s (afterPush s v) := ⟨rfl, rfl, rfl, rfl⟩

theorem afterPop_mem (s : State) (r : Reg) : (afterPop s r).mem = s.mem := rfl

/-- ESP is raised from the value the register write left in it (D15). -/
theorem afterPop_esp (s : State) (r : Reg) :
    (afterPop s r).reg .esp = wrap32 ((if r = .esp then topOfStack s else s.reg .esp).toInt + 4) := by
  simp [afterPop, eq_comm]

/-- EIP is advanced from the value the register write left in it. -/
theorem afterPop_eip (s : State) (r : Reg) :
    (afterPop s r).reg .eip = wrap32 ((if r = .eip then topOfStack s else s.reg .eip).toInt + 4) := by
  simp [afterPop, eq_comm]

theorem afterPop_reg_of_ne (s : State) (r : Reg) {q : Reg} (hesp : q ≠ .esp) (heip : q ≠ .eip) :
    (afterPop s r).reg q = if q = r then topOfStack s else s.reg q := by
  simp [afterPop, hesp, heip]

theorem afterPop_sameControl (s : State) (r : Reg) : SameControl s (afterPop s r) := ⟨rfl, rfl, rfl, rfl⟩

/-- Settles O36: the line leaves the push with EIP advanced. -/
theorem pushlStoresBelowTheTop : Obligations.PushlStoresBelowTheTop := by
  intro s src v hv hroom
  exact ⟨_, exec_pushl_eq hv hroom, afterPush_storedOnly s v, afterPush_esp_toInt hroom v, rfl,
    fun _ hesp heip => afterPush_reg_of_ne s v hesp heip, afterPush_sameControl s v⟩

/-- Settles O38: the register is written before ESP is raised and EIP advanced. -/
theorem poplToRegister : Obligations.PoplToRegister := by
  rintro s r v hroom rfl
  exact ⟨_, exec_popl_reg_eq r hroom, afterPop_esp s r, afterPop_eip s r,
    fun _ hesp heip => afterPop_reg_of_ne s r hesp heip, fun _ => rfl, afterPop_sameControl s r⟩

/-- Settles O39: the store comes before ESP is raised, at the address the old ESP gives. -/
theorem poplToMemory : Obligations.PoplToMemory := by
  intro s base off hroom haddr
  refine ⟨_, exec_popl_mem_eq hroom haddr, fun b => ?_, rfl, rfl, fun r hesp heip => ?_, ⟨rfl, rfl, rfl, rfl⟩⟩
  · exact Memory.read_write _ _ _ _
  · simp [hesp, heip]

/-! ### The guard word (R113) -/

/-- A push with room for it stores at address 4 or above. -/
theorem pushWord_read_zero {s : State} (hroom : PushRoom s) (v : Word) : (pushWord s v).mem.read 0 = s.mem.read 0 := by
  obtain ⟨-, hguard⟩ := hroom
  rw [pushWord_storedOnly s v 0, if_neg (by omega)]

/-- Settles O43: a PUSHL or a CALL enters a fault or is a push with room for it. -/
theorem guardWordIsNeverPushedInto : Obligations.GuardWordIsNeverPushedInto := by
  rintro s t (⟨op, h⟩ | ⟨tok, h⟩)
  · rcases afterData_next h with ⟨u, hu, rfl⟩ | ⟨c, -, rfl⟩
    · obtain ⟨-, -, hroom, rfl⟩ := runPushl_success hu
      exact pushWord_read_zero hroom _
    · rfl
  · rcases afterTransfer_next h with hu | ⟨c, -, rfl⟩
    · obtain ⟨a, -, hroom, rfl⟩ := runCall_success hu
      exact pushWord_read_zero hroom _
    · rfl

/-! ### Sequences -/

theorem execAll_cons_of_next {i : Instr} {s t : State} (h : exec i s = .next t) (is : List Instr) :
    execAll (i :: is) s = execAll is t := by
  rw [execAll, h]

theorem execAll_append (is js : List Instr) (s : State) :
    execAll (is ++ js) s = (execAll is s).bind (execAll js) := by
  induction is generalizing s with
  | nil => rfl
  | cons i is ih =>
    rw [List.cons_append, execAll, execAll]
    cases exec i s with
    | next t => exact ih t
    | fault c => rfl
    | refused c => rfl

/-! ### A push and then a pop (R110) -/

theorem topOfStack_afterPush {s : State} (hroom : PushRoom s) (v : Word) : topOfStack (afterPush s v) = v := by
  rw [topOfStack, State.load, afterPush_esp_toInt hroom, afterPush_storedOnly s v, if_pos rfl]

/-- Where the old ESP is a valid address, the pushed word can be popped (D14). -/
theorem afterPush_popRoom {s : State} (hroom : PushRoom s) (hesp : ValidAddr s.cfg (s.reg .esp).toInt) (v : Word) :
    PopRoom (afterPush s v) := by
  rw [PopRoom, afterPush_esp_toInt hroom, sub_add_cancel]
  exact ⟨hroom.1, hesp⟩

/-- Raising ESP after a push gives back the old ESP. -/
theorem wrap32_afterPush_esp_add {s : State} (hroom : PushRoom s) (v : Word) :
    wrap32 (((afterPush s v).reg .esp).toInt + 4) = s.reg .esp := by
  rw [afterPush_esp_toInt hroom, sub_add_cancel, wrap32_toInt]

/-- Settles O41: the pop finds the pushed word on top. -/
theorem popRecoversThePushedValue : Obligations.PopRecoversThePushedValue := by
  intro s src v r hv hroom hesp
  have hpop := exec_popl_reg_eq r (afterPush_popRoom hroom hesp v)
  refine ⟨_, (execAll_cons_of_next (exec_pushl_eq hv hroom) _).trans (execAll_cons_of_next hpop []), ?_, fun hr => ?_⟩
  · by_cases hsp : r = .esp
    · subst hsp
      simp [afterPop_esp, topOfStack_afterPush hroom]
    by_cases hip : r = .eip
    · subst hip
      simp [afterPop_eip, topOfStack_afterPush hroom]
    simp [afterPop_reg_of_ne _ r hsp hip, topOfStack_afterPush hroom, hsp, hip]
  · rw [afterPop_esp, if_neg hr, wrap32_afterPush_esp_add hroom]

/-! ### Nested pushes and pops (R114) -/

/-- The sequence runs from `s` to `t` and restores every register but EIP, the control state and every word from the
top of the stack up. -/
def RestoresStack (is : List Instr) (s t : State) : Prop :=
  execAll is s = some t ∧ (∀ r, r ≠ .eip → t.reg r = s.reg r)
    ∧ (∀ a : Nat, (s.reg .esp).toInt ≤ a → t.mem.read a = s.mem.read a) ∧ SameControl s t

theorem RestoresStack.nil (s : State) : RestoresStack [] s s :=
  ⟨rfl, fun _ _ => rfl, fun _ _ => rfl, rfl, rfl, rfl, rfl⟩

/-- Between the push and the pop of a register, a sequence that restores the stack finds the pushed word untouched. -/
theorem RestoresStack.bracket {is : List Instr} {s w : State} {r : Reg} (hr : r ≠ .esp ∧ r ≠ .eip) (hroom : PushRoom s)
    (hesp : ValidAddr s.cfg (s.reg .esp).toInt) (h : RestoresStack is (afterPush s (s.reg r)) w) :
    RestoresStack (.pushl (.reg r) :: is ++ [.popl (.reg r)]) s (afterPop w r)
      ∧ (afterPop w r).mem.read ((s.reg .esp).toInt - 4).toNat = s.reg r := by
  obtain ⟨hrun, hreg, hmem, hctl⟩ := h
  obtain ⟨hrsp, hrip⟩ := hr
  have hsp : w.reg .esp = (afterPush s (s.reg r)).reg .esp := hreg .esp (by decide)
  have hroom' : PopRoom w := by
    rw [PopRoom, hctl.1, hsp]
    exact afterPush_popRoom hroom hesp (s.reg r)
  have htop : topOfStack w = s.reg r := by
    rw [topOfStack, State.load, hsp, hmem _ (Int.self_le_toNat _)]
    exact topOfStack_afterPush hroom (s.reg r)
  refine ⟨⟨?_, fun q hq => ?_, fun a ha => ?_, hctl⟩, ?_⟩
  · rw [List.cons_append, execAll_cons_of_next (exec_pushl_eq rfl hroom), execAll_append, hrun]
    exact execAll_cons_of_next (exec_popl_reg_eq r hroom') []
  · by_cases hqsp : q = .esp
    · rw [hqsp, afterPop_esp, if_neg hrsp, hsp, wrap32_afterPush_esp_add hroom]
    · rw [afterPop_reg_of_ne w r hqsp hq, htop, hreg q hq, afterPush_reg_of_ne s _ hqsp hq]
      split_ifs with hqr
      · rw [hqr]
      · rfl
  · rw [afterPop_mem, hmem a (by rw [afterPush_esp_toInt hroom]; omega), afterPush_storedOnly, if_neg (by omega)]
  · rw [afterPop_mem, ← htop, topOfStack, State.load, hsp, afterPush_esp_toInt hroom]

/-- The registers pushed in order and popped in the opposite order. -/
def pushesThenPops : List Reg → List Instr
  | [] => []
  | r :: rs => .pushl (.reg r) :: pushesThenPops rs ++ [.popl (.reg r)]

/-- With room for every register above the guard word, nested pushes and pops restore the registers and leave the
pushed words below the stack. -/
theorem pushesThenPops_restoresStack {rs : List Reg} (hrs : ∀ r ∈ rs, r ≠ .esp ∧ r ≠ .eip) {s : State}
    (hesp : ValidAddr s.cfg (s.reg .esp).toInt) (hspace : 4 * ((rs.length : Int) + 1) ≤ (s.reg .esp).toInt) :
    ∃ t, RestoresStack (pushesThenPops rs) s t
      ∧ ∀ i (hi : i < rs.length), t.mem.read ((s.reg .esp).toInt - 4 * ((i : Int) + 1)).toNat = s.reg rs[i] := by
  induction rs generalizing s with
  | nil => exact ⟨s, .nil s, nofun⟩
  | cons r rs ih =>
    obtain ⟨hr, hrs⟩ := List.forall_mem_cons.mp hrs
    rw [List.length_cons, Nat.cast_add_one] at hspace
    have hroom : PushRoom s := by
      obtain ⟨h0, htop, hmod⟩ := hesp
      exact ⟨⟨by omega, by omega, by omega⟩, by omega⟩
    have hsp := afterPush_esp_toInt hroom (s.reg r)
    obtain ⟨w, hw, hwords⟩ := ih hrs (s := afterPush s (s.reg r)) (by rw [hsp]; exact hroom.1) (by rw [hsp]; omega)
    obtain ⟨ht, hword⟩ := hw.bracket hr hroom hesp
    refine ⟨_, ht, fun i hi => ?_⟩
    cases i with
    | zero => exact hword
    | succ i =>
      have hi' : i < rs.length := Nat.lt_of_succ_lt_succ hi
      obtain ⟨hne, hne'⟩ := hrs rs[i] (List.getElem_mem hi')
      have hread := hwords i hi'
      rw [afterPush_reg_of_ne s _ hne hne', hsp] at hread
      rw [afterPop_mem, List.getElem_cons_succ, ← hread]
      congr 2
      push_cast
      ring

/-- Settles O42: the three nested pairs are the list of three registers. -/
theorem threePushesAndPopsRestoreTheRegisters : Obligations.ThreePushesAndPopsRestoreTheRegisters := by
  intro s a b c hne hesp hspace
  obtain ⟨t, ⟨hrun, hreg, -, hctl⟩, hwords⟩ := pushesThenPops_restoresStack hne hesp (by simpa using hspace)
  exact ⟨t, hrun, hreg, hwords 0 (by simp), hwords 1 (by simp), hwords 2 (by simp), hctl⟩

end Sys2Proof.Machine
end

/-! ## Control transfer (42_control_flow.md) -/

section
namespace Sys2Proof.Machine

/-! ### Labels (R120) -/

/-- A label's address names the slot after its first line, so it is aligned, positive and at most INSTR_COUNT*4. -/
theorem LabelAddr.range {imem : List Line} {tok : Token} {t : Int} (h : LabelAddr imem tok t) :
    4 ≤ t ∧ t ≤ (imem.length : Int) * 4 ∧ t % 4 = 0 := by
  obtain ⟨-, i, hi, -, rfl⟩ := h
  obtain ⟨hlt, -⟩ := List.getElem?_eq_some_iff.mp hi
  omega

/-- Lines after the program's own do not move a label. -/
theorem LabelAddr.append {imem : List Line} {tok : Token} {t : Int} (h : LabelAddr imem tok t) (later : List Line) :
    LabelAddr (imem ++ later) tok t := by
  obtain ⟨hdot, i, hi, hfirst, rfl⟩ := h
  obtain ⟨hlt, -⟩ := List.getElem?_eq_some_iff.mp hi
  refine ⟨hdot, i, ?_, fun j hj => ?_, rfl⟩
  · rwa [List.getElem?_append_left hlt]
  · rw [List.getElem?_append_left (hj.trans hlt)]
    exact hfirst j hj

theorem LabelAddr.token_ne_nil {imem : List Line} {tok : Token} {t : Int} (h : LabelAddr imem tok t) : tok ≠ [] := by
  rintro rfl
  exact absurd h.1 (by simp)

/-- A program that a legal MEM_WORDS allows has no slot address outside W32, its end included (D27). -/
theorem State.inv.toInt_wrap32 {s : State} (hinv : s.inv) {a : Int} (h0 : 0 ≤ a) (ha : a ≤ (s.imem.length : Int) * 4) :
    (wrap32 a).toInt = a := by
  obtain ⟨hcfg, hprog, -⟩ := hinv
  have hlen : s.imem.length ≤ s.cfg.memWords :=
    Nat.not_lt.mp fun hlt => absurd (s.programOk_eq_false_iff.mpr (.inr hlt)) (by simp [hprog])
  have hwords : s.cfg.memWords ≤ 536870911 := by
    simp only [Config.wf, Bool.and_eq_true, decide_eq_true_iff] at hcfg
    omega
  exact wrap32_toInt_of_range (by omega) (by omega)

/-- Settles O44: the Label Resolver answers a label's address, which later lines do not move. -/
theorem labelAddressIsASlotAddressAndTheFirst : Obligations.LabelAddressIsASlotAddressAndTheFirst := by
  intro s tok t hfind
  have hlabel := (findLabel_eq_some_iff _ _ _).mp hfind
  obtain ⟨hlow, hhigh, halign⟩ := hlabel.range
  exact ⟨hlabel, hlow, hhigh, halign, fun hinv => hinv.toInt_wrap32 (by omega) hhigh,
    fun later => (findLabel_eq_some_iff _ _ _).mpr (hlabel.append later)⟩

/-! ### Jumps (R121 to R126, 43_sequencer.md R144) -/

theorem runJump_of_noLabel {s : State} {tok : Token} (h : NoLabel s.imem tok) (taken : Bool) :
    runJump taken tok s = .raised .pcError := by
  rw [runJump, (findLabel_eq_none_iff _ _).mpr h]

theorem runJump_of_labelAddr {s : State} {tok : Token} {t : Int} (h : LabelAddr s.imem tok t) (taken : Bool) :
    runJump taken tok s = .success (if taken then s.setReg .eip (wrap32 t) else s) := by
  rw [runJump, (findLabel_eq_some_iff _ _ _).mpr h]

/-- An executor that gives EIP another value is trusted. -/
theorem afterJump_of_ne {s : State} {v : Word} (h : v ≠ s.reg .eip) :
    afterJump s (.success (s.setReg .eip v)) = .next (s.withEip v) := by
  rw [afterJump, State.setReg_reg, if_pos rfl, if_neg h]
  rfl

/-- An executor that leaves the state alone is advanced past. -/
theorem afterJump_of_unchanged (s : State) : afterJump s (.success s) = .next (s.withEip (wrap32 (s.pc + 4))) := by
  rw [afterJump, if_pos rfl]
  rfl

/-- The jump family, each instruction with its condition on the flag. -/
def jumpFamily (s : State) (tok : Token) : List (Instr × Prop) :=
  [(.jmp tok, True), (.je tok, s.flag.value = 0), (.jne tok, s.flag.value ≠ 0), (.jl tok, s.flag.value = -1),
    (.jg tok, s.flag.value = 1)]

/-- Every member of the family is the one jump executor, run with its condition. -/
theorem exec_of_mem_jumpFamily {s : State} {tok : Token} {i : Instr} {holds : Prop}
    (h : (i, holds) ∈ jumpFamily s tok) :
    ∃ taken : Bool, (taken = true ↔ holds) ∧ exec i s = afterJump s (runJump taken tok s) := by
  simp only [jumpFamily, List.mem_cons, List.not_mem_nil, or_false, Prod.mk.injEq] at h
  obtain ⟨rfl, rfl⟩ | ⟨rfl, rfl⟩ | ⟨rfl, rfl⟩ | ⟨rfl, rfl⟩ | ⟨rfl, rfl⟩ := h
  · exact ⟨true, iff_of_true rfl trivial, rfl⟩
  · exact ⟨condEqual s.flag, decide_eq_true_iff, rfl⟩
  · exact ⟨condNotEqual s.flag, decide_eq_true_iff, rfl⟩
  · exact ⟨condLess s.flag, decide_eq_true_iff, rfl⟩
  · exact ⟨condGreater s.flag, decide_eq_true_iff, rfl⟩

/-- Settles O45: a jump taken to its own address leaves the state alone, as one not taken does. -/
theorem jumpGoesToItsLabelWhenItsConditionHolds : Obligations.JumpGoesToItsLabelWhenItsConditionHolds := by
  intro s tok i holds hmem
  obtain ⟨taken, htaken, hexec⟩ := exec_of_mem_jumpFamily hmem
  refine ⟨fun hno => ?_, fun t hlabel => ⟨fun hh hne => ?_, fun hh hown => ?_, fun hh => ?_⟩⟩
  · rw [hexec, runJump_of_noLabel hno]
    rfl
  · rw [hexec, runJump_of_labelAddr hlabel, if_pos (htaken.mpr hh), afterJump_of_ne hne]
  · rw [hexec, runJump_of_labelAddr hlabel, if_pos (htaken.mpr hh), hown]
    exact afterJump_of_unchanged s
  · rw [hexec, runJump_of_labelAddr hlabel, if_neg (mt htaken.mp hh), afterJump_of_unchanged]

/-! ### CALL (R128, 43_sequencer.md R145) -/

/-- The state a CALL to the address `t` leaves. -/
def afterCall (s : State) (t : Int) : State := (pushWord s (wrap32 (s.pc + 4))).setReg .eip (wrap32 t)

theorem runCall_of_noLabel {s : State} {tok : Token} (h : NoLabel s.imem tok) :
    runCall tok s = .raised .pcError := by
  rw [runCall, (findLabel_eq_none_iff _ _).mpr h]

theorem runCall_of_not_pushRoom {s : State} {tok : Token} {t : Int} (h : LabelAddr s.imem tok t)
    (hroom : ¬ PushRoom s) : runCall tok s = .raised .memoryError := by
  rw [← pushAllowed_iff, Bool.not_eq_true] at hroom
  simp [runCall, (findLabel_eq_some_iff _ _ _).mpr h, hroom]

theorem runCall_of_pushRoom {s : State} {tok : Token} {t : Int} (h : LabelAddr s.imem tok t)
    (hroom : PushRoom s) : runCall tok s = .success (afterCall s t) := by
  simp [runCall, (findLabel_eq_some_iff _ _ _).mpr h, (pushAllowed_iff s).mpr hroom, afterCall]

theorem exec_call_eq {s : State} {tok : Token} {t : Int} (h : LabelAddr s.imem tok t) (hroom : PushRoom s) :
    exec (.call tok) s = .next (afterCall s t) :=
  congrArg (afterTransfer s) (runCall_of_pushRoom h hroom)

theorem afterCall_storedOnly (s : State) (t : Int) :
    StoredOnly s (afterCall s t) ((s.reg .esp).toInt - 4).toNat (wrap32 (s.pc + 4)) := pushWord_storedOnly s _

theorem afterCall_esp_toInt {s : State} (hroom : PushRoom s) (t : Int) :
    ((afterCall s t).reg .esp).toInt = (s.reg .esp).toInt - 4 := by
  simpa [afterCall] using wrap32_pushAddr_toInt hroom

theorem afterCall_eip (s : State) (t : Int) : (afterCall s t).reg .eip = wrap32 t := rfl

theorem afterCall_reg_of_ne (s : State) (t : Int) {r : Reg} (hesp : r ≠ .esp) (heip : r ≠ .eip) :
    (afterCall s t).reg r = s.reg r := by
  simp [afterCall, hesp, heip]

theorem afterCall_sameControl (s : State) (t : Int) : SameControl s (afterCall s t) := ⟨rfl, rfl, rfl, rfl⟩

/-- Settles O47: the label is looked up before room is checked, and the push is of EIP + 4. -/
theorem callPushesTheReturnAddress : Obligations.CallPushesTheReturnAddress := by
  refine fun s tok => ⟨fun hno => ?_, fun t hlabel => ⟨fun hroom => ?_, fun hroom => ?_⟩⟩
  · exact congrArg (afterTransfer s) (runCall_of_noLabel hno)
  · exact congrArg (afterTransfer s) (runCall_of_not_pushRoom hlabel hroom)
  · exact ⟨_, exec_call_eq hlabel hroom, afterCall_storedOnly s t, afterCall_esp_toInt hroom t, afterCall_eip s t,
      fun _ hesp heip => afterCall_reg_of_ne s t hesp heip, afterCall_sameControl s t⟩

/-! ### RET (R129, 43_sequencer.md R145) -/

/-- The top word names a slot of the program. -/
def TopNamesSlot (s : State) : Prop :=
  0 ≤ (topOfStack s).toInt ∧ (topOfStack s).toInt < (s.imem.length : Int) * 4 ∧ (topOfStack s).toInt % 4 = 0

/-- The state a RET to the top word leaves. -/
def afterRet (s : State) : State := raiseEsp (s.setReg .eip (topOfStack s))

theorem runRet_of_not_validAddr {s : State} (h : ¬ ValidAddr s.cfg (s.reg .esp).toInt) :
    runRet s = .raised .memoryError := by
  simp [runRet, (validAddr_eq_false_iff _ _).mpr h]

theorem runRet_of_not_topNamesSlot {s : State} (h : ValidAddr s.cfg (s.reg .esp).toInt) (htop : ¬ TopNamesSlot s) :
    runRet s = .raised .pcError := by
  rw [TopNamesSlot, ← returnAddrOk_iff, Bool.not_eq_true] at htop
  simp [runRet, (validAddr_iff _ _).mpr h, htop]

theorem runRet_of_topNamesSlot {s : State} (h : ValidAddr s.cfg (s.reg .esp).toInt) (htop : TopNamesSlot s) :
    runRet s = .success (afterRet s) := by
  simp [runRet, (validAddr_iff _ _).mpr h, (returnAddrOk_iff _ _).mpr htop, afterRet]

theorem exec_ret_eq {s : State} (h : ValidAddr s.cfg (s.reg .esp).toInt) (htop : TopNamesSlot s) :
    exec .ret s = .next (afterRet s) :=
  congrArg (afterTransfer s) (runRet_of_topNamesSlot h htop)

theorem afterRet_eip (s : State) : (afterRet s).reg .eip = topOfStack s := rfl

theorem afterRet_esp (s : State) : (afterRet s).reg .esp = wrap32 ((s.reg .esp).toInt + 4) := rfl

theorem afterRet_reg_of_ne (s : State) {r : Reg} (hesp : r ≠ .esp) (heip : r ≠ .eip) :
    (afterRet s).reg r = s.reg r := by
  simp [afterRet, hesp, heip]

theorem afterRet_sameControl (s : State) : SameControl s (afterRet s) := ⟨rfl, rfl, rfl, rfl⟩

/-- Settles O48: ESP is checked first, then the top word. -/
theorem retGoesToTheReturnAddress : Obligations.RetGoesToTheReturnAddress := by
  rintro s r rfl
  refine ⟨fun hesp => ?_, fun hesp htop => ?_, fun hesp h0 hlt h4 => ?_⟩
  · exact congrArg (afterTransfer s) (runRet_of_not_validAddr hesp)
  · exact congrArg (afterTransfer s) (runRet_of_not_topNamesSlot hesp htop)
  · exact ⟨_, exec_ret_eq hesp ⟨h0, hlt, h4⟩, afterRet_eip s, afterRet_esp s,
      fun _ hsp hip => afterRet_reg_of_ne s hsp hip, fun _ => rfl, afterRet_sameControl s⟩

/-! ### A CALL and then a RET (95_test_vectors.md A7) -/

theorem stepTimes_succ_of_next {s t : State} (h : step s = .next t) (n : Nat) :
    stepTimes (n + 1) s = stepTimes n t := by
  rw [stepTimes, h]

/-- A running machine with a well-formed program runs the decoded line of the slot EIP names (43_sequencer.md R140). -/
theorem step_eq_exec {s : State} {l : Line} {i : Instr} (hrun : s.status = .running) (hprog : s.programOk = true)
    (h0 : 0 ≤ s.pc) (h4 : s.pc % 4 = 0) (hl : s.imem[(s.pc / 4).toNat]? = some l) (hd : decode s.cfg l = .ok i) :
    step s = exec i s := by
  rw [step_of_line hrun hprog (State.fetch_eq_line h0 h4 hl), stepLine, hd]

theorem topOfStack_afterCall {s : State} (hroom : PushRoom s) (t : Int) :
    topOfStack (afterCall s t) = wrap32 (s.pc + 4) := by
  rw [topOfStack, State.load, afterCall_esp_toInt hroom, afterCall_storedOnly s t, if_pos rfl]

/-- Only EIP remembers a CALL and the RET after it: ESP is back where it was. -/
theorem afterRet_afterCall_reg {s : State} (hroom : PushRoom s) (t : Int) {r : Reg} (heip : r ≠ .eip) :
    (afterRet (afterCall s t)).reg r = s.reg r := by
  by_cases hesp : r = .esp
  · rw [hesp, afterRet_esp, afterCall_esp_toInt hroom, sub_add_cancel, wrap32_toInt]
  · rw [afterRet_reg_of_ne _ hesp heip, afterCall_reg_of_ne s t hesp heip]

/-- Settles O49: the CALL's step leaves the return address on top, and it names the slot after the CALL. -/
theorem callThenRetComesBackAfterTheCall : Obligations.CallThenRetComesBackAfterTheCall := by
  intro s tok t k hinv hrun hpc hline htok hlabel hret hk hroom
  have ⟨hcfg, hprog, _⟩ := hinv
  obtain ⟨hlow, hhigh, halign⟩ := hlabel.range
  have hcall : step s = .next (afterCall s t) := by
    rw [step_eq_exec hrun hprog (by omega) (by omega) (by rwa [show (s.pc / 4).toNat = k by omega])
      (decode_one_operand hcfg .call htok hlabel.token_ne_nil)]
    exact exec_call_eq hlabel hroom
  have hpc' : (afterCall s t).pc = t := hinv.toInt_wrap32 (by omega) hhigh
  have hback : (wrap32 (s.pc + 4)).toInt = s.pc + 4 := hinv.toInt_wrap32 (by omega) (by omega)
  have htop : TopNamesSlot (afterCall s t) := by
    obtain ⟨-, himem, -⟩ := afterCall_sameControl s t
    rw [TopNamesSlot, topOfStack_afterCall hroom, hback, himem]
    omega
  have hesp : ValidAddr (afterCall s t).cfg ((afterCall s t).reg .esp).toInt := by
    rw [afterCall_esp_toInt hroom]
    exact hroom.1
  have hreturn : step (afterCall s t) = .next (afterRet (afterCall s t)) := by
    rw [step_eq_exec (s := afterCall s t) hrun hprog (by omega) (by omega) (by rw [hpc']; exact hret)
      (decode_no_operand hcfg .ret)]
    exact exec_ret_eq hesp htop
  refine ⟨_, (stepTimes_succ_of_next hcall 1).trans (stepTimes_succ_of_next hreturn 0), ?_,
    fun r hr => afterRet_afterCall_reg hroom t hr, afterCall_storedOnly s t, ⟨rfl, rfl, rfl, rfl⟩⟩
  rw [State.pc, afterRet_eip, topOfStack_afterCall hroom, hback]

end Sys2Proof.Machine
end

/-! ## The sequencer (43_sequencer.md) -/

section
namespace Sys2Proof.Machine

/-! ### Lines that decode without an executor (R62, R142, R146) -/

/-- The decoder answers the end marker on the marker's text alone. -/
theorem decode_eq_endMarker_iff (cfg : Config) (l : Line) :
    decode cfg l = .ok .endMarker ↔ lineOk l = true ∧ l = cfg.endMarker := by
  rcases decode_cases cfg l with ⟨hl, hd⟩ | ⟨hl, he, hd⟩ | ⟨hl, he, m, operands, -, -, hd⟩ | ⟨hl, he, -, hd⟩
  · simp [hd, hl]
  · exact iff_of_true hd ⟨hl, he⟩
  · have hbuild : ∀ t1 t2 : Token, m.build t1 t2 ≠ .endMarker := fun _ _ => by cases m <;> simp [Mnemonic.build]
    simp [hd, he, decodeOpcodeLine_eq_ok_iff, hbuild]
  · have hother : decodeOtherLine l ≠ .endMarker := by
      unfold decodeOtherLine
      split <;> simp
    simp [hd, he, hother]

/-- Settles O16: both arms are the advance, which is another EIP and nothing else. -/
theorem labelAndUnrecognisedLinesAreSkipped : Obligations.LabelAndUnrecognisedLinesAreSkipped :=
  fun _ _ => ⟨rfl, rfl⟩

/-- A line that is no opcode line is skipped, be it a label line or an unrecognised one. -/
theorem exec_decodeOtherLine (l : Line) (s : State) :
    exec (decodeOtherLine l) s = .next (s.withEip (wrap32 (s.pc + 4))) := by
  obtain ⟨hlabel, hunrecognised⟩ := labelAndUnrecognisedLinesAreSkipped s l
  unfold decodeOtherLine
  split
  · exact hlabel
  · exact hunrecognised

theorem lineOk_of_programOk {s : State} (hprog : s.programOk = true) {k : Nat} {l : Line} (hl : s.imem[k]? = some l) :
    lineOk l = true := by
  rw [State.programOk, Bool.and_eq_true, List.all_eq_true] at hprog
  exact hprog.1 l (List.mem_of_getElem? hl)

/-! ### The fetch (R141) -/

theorem State.fetch_eq_outOfRange_iff (s : State) :
    s.fetch = .outOfRange ↔ s.pc < 0 ∨ (s.imem.length : Int) * 4 ≤ s.pc := by
  unfold State.fetch State.instrCount
  split_ifs <;> simp [*]

/-- A fetched line stands in the slot whose address is EIP. -/
theorem State.exists_slot_of_fetch_eq_line {s : State} {l : Line} (h : s.fetch = .line l) :
    ∃ k : Nat, s.pc = (k : Int) * 4 ∧ s.imem[k]? = some l := by
  unfold State.fetch State.instrCount at h
  split_ifs at h with hrange halign
  have hslot : (s.pc / 4).toNat < s.imem.length := by omega
  refine ⟨(s.pc / 4).toNat, by omega, ?_⟩
  rw [List.getD_eq_getElem _ _ hslot, Fetch.line.injEq] at h
  exact List.getElem?_eq_some_iff.mpr ⟨hslot, h⟩

/-! ### One step (R140) -/

/-- Settles O10: the fetch finds the slot's line, and the step runs what it decodes to. -/
theorem stepRunsTheDecodedInstruction : Obligations.StepRunsTheDecodedInstruction :=
  fun _ _ _ => step_eq_exec

theorem step_of_outOfRange {s : State} (hrun : s.status = .running) (hprog : s.programOk = true)
    (hfetch : s.fetch = .outOfRange) : step s = .next (s.halt .outOfRange) := by
  simp [step, hrun, stepRunning, hprog, hfetch]

/-- Settles O11: both sides of the range are the fetch's first test. -/
theorem fetchOutsideTheProgramHalts : Obligations.FetchOutsideTheProgramHalts :=
  fun s hrun hprog hpc => step_of_outOfRange hrun hprog (s.fetch_eq_outOfRange_iff.mpr hpc)

theorem step_of_faulted {s : State} {c : ErrorCode} (h : s.status = .faulted c) : step s = .fault c.fault := by
  simp [step, h]

/-- Settles O13: a next state needs the status running. -/
theorem noStepLeavesATerminalStatus : Obligations.NoStepLeavesATerminalStatus :=
  fun _ hne => ⟨fun _ h => hne (step_next_cases h).1, fun _ => step_of_faulted⟩

/-- Settles O14: such a line decodes to a line that is skipped. -/
theorem unrecognisedLineOnlyAdvances : Obligations.UnrecognisedLineOnlyAdvances := by
  intro s l hrun hprog h0 h4 hl hmarker hopcode
  have hdecode := decode_other (lineOk_of_programOk hprog hl) hmarker hopcode
  rw [step_eq_exec hrun hprog h0 h4 hl hdecode, exec_decodeOtherLine]

/-- Settles O15: the marker's text decodes to the end marker, whose arm is a halt. -/
theorem endMarkerLineHalts : Obligations.EndMarkerLineHalts := by
  refine ⟨fun _ => rfl, fun s hrun hprog h0 h4 hl => ?_⟩
  have hdecode := (decode_eq_endMarker_iff s.cfg _).mpr ⟨lineOk_of_programOk hprog hl, rfl⟩
  exact step_eq_exec hrun hprog h0 h4 hl hdecode

/-! ### The outcomes of an instruction and of a step (R149, R152, R153) -/

/-- An instruction has a next state from every state: what follows an executor is total. -/
theorem exists_exec_eq_next (i : Instr) (s : State) : ∃ t, exec i s = .next t := by
  have data (r : ExecResult) : ∃ t, afterData s r = .next t := by
    obtain ⟨_, -, h⟩ | ⟨_, -, h⟩ := afterData_cases s r <;> exact ⟨_, h⟩
  have jump (r : ExecResult) : ∃ t, afterJump s r = .next t := by
    obtain ⟨_, -, -, h⟩ | ⟨_, -, -, h⟩ | ⟨_, -, h⟩ := afterJump_cases s r <;> exact ⟨_, h⟩
  have transfer (r : ExecResult) : ∃ t, afterTransfer s r = .next t := by
    obtain ⟨_, -, h⟩ | ⟨_, -, h⟩ := afterTransfer_cases s r <;> exact ⟨_, h⟩
  cases i with
  | movl _ _ | addl _ _ | subl _ _ | cmpl _ _ | pushl _ | popl _ => exact data _
  | jmp _ | je _ | jne _ | jl _ | jg _ => exact jump _
  | call _ | ret => exact transfer _
  | endMarker | label _ | unrecognised _ => exact ⟨_, rfl⟩

/-- Settles O21: the next state exists and is one of the three. -/
theorem everyInstructionFaultsHaltsOrKeepsTheStatus : Obligations.EveryInstructionFaultsHaltsOrKeepsTheStatus := by
  intro i s
  obtain ⟨t, h⟩ := exists_exec_eq_next i s
  exact ⟨t, h, exec_next_status h⟩

/-- The two ways a step halts a run, each with the fetch that it followed (D19). -/
theorem step_next_of_halted {s t : State} {why : HaltReason} (h : step s = .next t) (ht : t.status = .halted why) :
    t = s.halt why ∧
      ((why = .outOfRange ∧ s.fetch = .outOfRange) ∨ (why = .endMarker ∧ s.fetch = .line s.cfg.endMarker)) := by
  obtain ⟨hrun, -, ⟨hfetch, rfl⟩ | ⟨l, i, hfetch, hdecode, hexec⟩⟩ := step_next_cases h
  · obtain rfl : HaltReason.outOfRange = why := by simpa using ht
    exact ⟨rfl, .inl ⟨rfl, hfetch⟩⟩
  · rcases exec_next_status hexec with ⟨c, rfl⟩ | ⟨rfl, rfl⟩ | ⟨-, hkeep⟩
    · simp at ht
    · obtain rfl : HaltReason.endMarker = why := by simpa using ht
      obtain ⟨-, rfl⟩ := (decode_eq_endMarker_iff s.cfg l).mp hdecode
      exact ⟨rfl, .inr ⟨rfl, hfetch⟩⟩
    · simp [hkeep, hrun] at ht

/-- Settles O27: a halt keeps EIP and the table, so what the fetch found is still to be read off them. -/
theorem terminalStatusTellsHowTheRunEnded : Obligations.TerminalStatusTellsHowTheRunEnded := by
  refine fun s t h => ⟨fun ht => ?_, fun ht => ?_⟩
  · obtain ⟨rfl, ⟨hwhy, -⟩ | ⟨-, hfetch⟩⟩ := step_next_of_halted h ht
    · cases hwhy
    · exact ⟨rfl, State.exists_slot_of_fetch_eq_line hfetch⟩
  · obtain ⟨rfl, ⟨-, hfetch⟩ | ⟨hwhy, -⟩⟩ := step_next_of_halted h ht
    · exact ⟨rfl, s.fetch_eq_outOfRange_iff.mp hfetch⟩
    · cases hwhy

/-! ### The loader's stand-in (log entry 3) -/

/-- The slot a line is placed in is one that a table of MEM_WORDS lines has. -/
theorem State.fetchSlot_lt {s : State} (hcfg : s.cfg.wf = true) : s.fetchSlot < s.cfg.memWords := by
  simp only [Config.wf, Bool.and_eq_true, decide_eq_true_iff] at hcfg
  unfold State.fetchSlot
  split_ifs <;> omega

/-- The address of that slot fits EIP (D27). -/
theorem State.placeLine_pc {s : State} (hcfg : s.cfg.wf = true) (l : Line) :
    (s.placeLine l).pc = (s.fetchSlot : Int) * 4 := by
  have hslot := State.fetchSlot_lt hcfg
  simp only [Config.wf, Bool.and_eq_true, decide_eq_true_iff] at hcfg
  exact wrap32_toInt_of_range (by omega) (by omega)

theorem State.placeLine_cfg (s : State) (l : Line) : (s.placeLine l).cfg = s.cfg := rfl

theorem State.placeLine_imem (s : State) (l : Line) :
    (s.placeLine l).imem =
      (s.imem ++ List.replicate (s.fetchSlot + 1 - s.imem.length) []).set s.fetchSlot l := rfl

theorem State.placeLine_getElem? (s : State) (l : Line) : (s.placeLine l).imem[s.fetchSlot]? = some l := by
  rw [State.placeLine_imem, List.getElem?_set_self]
  simp only [List.length_append, List.length_replicate]
  omega

/-- Every line of the table is the placed one, a padding line, which is blank, or was there before. -/
theorem State.placeLine_programOk {s : State} {l : Line} (hcfg : s.cfg.wf = true) (hprog : s.programOk = true)
    (hl : lineOk l = true) : (s.placeLine l).programOk = true := by
  have hslot := State.fetchSlot_lt hcfg
  rw [State.programOk, Bool.and_eq_true, List.all_eq_true, decide_eq_true_iff, State.instrCount] at hprog ⊢
  obtain ⟨hlines, hlen⟩ := hprog
  rw [State.placeLine_imem]
  refine ⟨fun x hx => ?_, ?_⟩
  · rcases List.mem_or_eq_of_mem_set hx with hold | rfl
    · rcases List.mem_append.mp hold with hmem | hpad
      · exact hlines x hmem
      · rw [List.eq_of_mem_replicate hpad]
        rfl
    · exact hl
  · rw [List.length_set, List.length_append, List.length_replicate, State.placeLine_cfg]
    omega

/-- Settles O52: EIP is the address of the slot that holds the line. -/
theorem placedLineIsFetched : Obligations.PlacedLineIsFetched := by
  intro s l hcfg
  have hpc := State.placeLine_pc hcfg l
  have hindex : ((s.placeLine l).pc / 4).toNat = s.fetchSlot := by omega
  refine ⟨State.fetch_eq_line (by omega) (by omega) ?_, rfl, State.placeLine_programOk hcfg⟩
  rw [hindex, State.placeLine_getElem?]

end Sys2Proof.Machine
end

/-! ## The host operations (43_sequencer.md R150, R151) -/

section
namespace Sys2Proof.Machine

/-! ### What an EXEC operation reports (R150, D30) -/

theorem ErrorCode.result_ne_success (e : ErrorCode) : e.result ≠ .success := by cases e <;> simp [ErrorCode.result]

theorem ErrorCode.result_injective : Function.Injective ErrorCode.result
  | .instructionError, .instructionError, _ => rfl
  | .memoryError, .memoryError, _ => rfl
  | .pcError, .pcError, _ => rfl

/-- Of a well-formed program an operation reports what its executor does. -/
theorem hostExec_eq_report {s : State} (hprog : s.programOk = true) {c : ExecCall} {r : ExecResult}
    (h : c.execute s = r) : hostExec c s = .ok (r.report s) := by
  rw [hostExec, if_pos hprog, h]

/-- The two answers of an operation: SUCCESS with the executor's state, or the error's code with the old one. -/
theorem hostExec_cases {c : ExecCall} {s t : State} {code : ResultCode} (h : hostExec c s = .ok (code, t)) :
    (code = .success ∧ c.execute s = .success t) ∨
      ∃ e : ErrorCode, code = e.result ∧ c.execute s = .raised e ∧ t = s := by
  have hout := hostExec_eq_ok h
  cases hrun : c.execute s with
  | success u =>
    rw [hrun] at hout
    obtain ⟨rfl, rfl⟩ := Prod.mk.inj hout
    exact .inl ⟨rfl, rfl⟩
  | raised e =>
    rw [hrun] at hout
    obtain ⟨rfl, rfl⟩ := Prod.mk.inj hout
    exact .inr ⟨e, rfl, rfl, rfl⟩

/-! ### Data and stack instructions (R143) -/

/-- The data and stack operations, each with the instruction of the same operand tokens. -/
def dataOperations (t1 t2 : Token) : List (ExecCall × Instr) :=
  [(.movl t1 t2, .movl (resolve t1) (resolve t2)), (.addl t1 t2, .addl (resolve t1) (resolve t2)),
    (.subl t1 t2, .subl (resolve t1) (resolve t2)), (.cmpl t1 t2, .cmpl (resolve t1) (resolve t2)),
    (.pushl t1, .pushl (resolve t1)), (.popl t1, .popl (resolve t1))]

/-- The line of such an instruction is the operation's executor and what the sequencer does after it. -/
theorem exec_of_mem_dataOperations {t1 t2 : Token} {c : ExecCall} {i : Instr} (h : (c, i) ∈ dataOperations t1 t2)
    (s : State) : exec i s = afterData s (c.execute s) := by
  simp only [dataOperations, List.mem_cons, List.not_mem_nil, or_false, Prod.mk.injEq] at h
  obtain ⟨rfl, rfl⟩ | ⟨rfl, rfl⟩ | ⟨rfl, rfl⟩ | ⟨rfl, rfl⟩ | ⟨rfl, rfl⟩ | ⟨rfl, rfl⟩ := h <;> rfl

/-- Settles O17: the operation and the line run the same executor. -/
theorem dataInstructionAdvancesOnSuccess : Obligations.DataInstructionAdvancesOnSuccess := by
  intro s t code t1 t2 c i hmem hhost
  have hexec := exec_of_mem_dataOperations hmem s
  obtain ⟨rfl, hrun⟩ | ⟨e, rfl, hrun, rfl⟩ := hostExec_cases hhost
  · rw [hexec, hrun]
    exact ⟨fun _ => rfl, fun e he => absurd he.symm e.result_ne_success⟩
  · rw [hexec, hrun]
    exact ⟨fun he => absurd he e.result_ne_success, fun e' he => by rw [ErrorCode.result_injective he]; rfl⟩

/-! ### What a host operation leaves (R150, D30) -/

/-- MOVL, ADDL and SUBL write a value to their destination, and nothing else. -/
theorem execute_success_of_write {c : ExecCall} {t1 t2 : Token} {s t : State}
    (hc : c = .movl t1 t2 ∨ c = .addl t1 t2 ∨ c = .subl t1 t2) (h : c.execute s = .success t) :
    ∃ v, t = writeOperand s (resolve t2) v := by
  obtain rfl | rfl | rfl := hc
  · exact ⟨_, (runMovl_success h).2⟩
  · exact ⟨_, (runAddl_success h).2⟩
  · exact ⟨_, (runSubl_success h).2⟩

/-- No executor touches the status, the table or the parameters. -/
theorem execute_success_keeps {c : ExecCall} {s t : State} (h : c.execute s = .success t) :
    t.status = s.status ∧ t.imem = s.imem ∧ t.cfg = s.cfg := by
  cases c with
  | movl t1 t2 | addl t1 t2 | subl t1 t2 =>
    obtain ⟨v, rfl⟩ := execute_success_of_write (t1 := t1) (t2 := t2) (by simp) h
    simp
  | cmpl t1 t2 =>
    obtain ⟨-, rfl⟩ := runCmpl_success h
    exact ⟨rfl, rfl, rfl⟩
  | pushl t1 =>
    obtain ⟨-, -, -, rfl⟩ := runPushl_success h
    simp
  | popl t1 =>
    obtain ⟨-, ⟨r, -, rfl⟩ | ⟨b, o, -, -, rfl⟩⟩ := runPopl_success h
    · simp
    · simp
  | jump kind tok =>
    obtain ⟨a, -, rfl⟩ := runJump_success h
    split <;> simp
  | call tok =>
    obtain ⟨a, -, -, rfl⟩ := runCall_success h
    simp
  | ret =>
    obtain ⟨-, -, rfl⟩ := runRet_success h
    simp

/-- CMPL and PUSHL name no destination. -/
theorem execute_success_eip_of_cmpl_pushl {c : ExecCall} {t1 t2 : Token} {s t : State}
    (hc : c = .cmpl t1 t2 ∨ c = .pushl t1) (h : c.execute s = .success t) : t.reg .eip = s.reg .eip := by
  obtain rfl | rfl := hc
  · obtain ⟨-, rfl⟩ := runCmpl_success h
    rfl
  · obtain ⟨-, -, -, rfl⟩ := runPushl_success h
    simp

/-- POPL changes EIP only where its destination names it. -/
theorem runPopl_success_eip {dst : Operand} {s t : State} (hdst : dst ≠ .reg .eip) (h : runPopl dst s = .success t) :
    t.reg .eip = s.reg .eip := by
  obtain ⟨-, ⟨r, rfl, rfl⟩ | ⟨b, o, -, -, rfl⟩⟩ := runPopl_success h
  · have hr : Reg.eip ≠ r := fun he => hdst (he ▸ rfl)
    simp [hr]
  · simp

/-- A jump leaves the state alone or gives EIP the label's address. -/
theorem runJump_success_withEip {taken : Bool} {tok : Token} {s t : State} (h : runJump taken tok s = .success t) :
    t = s ∨ ∃ a : Int, LabelAddr s.imem tok a ∧ t = s.withEip (wrap32 a) := by
  obtain ⟨a, ha, rfl⟩ := runJump_success h
  cases taken with
  | true => exact .inr ⟨a, ha, rfl⟩
  | false => exact .inl rfl

/-- Settles O50: on an error the state is the old one, on SUCCESS each clause reads its executor. -/
theorem hostOperationDoesNotAdvanceEip : Obligations.HostOperationDoesNotAdvanceEip := by
  intro c s t code h
  obtain ⟨rfl, hrun⟩ | ⟨e, rfl, -, rfl⟩ := hostExec_cases h
  · obtain ⟨hstatus, himem, hcfg⟩ := execute_success_keeps hrun
    refine ⟨hstatus, himem, hcfg, fun t1 t2 hdst hc => ?_, fun t1 t2 hc => ?_, fun t1 hdst hc => ?_,
      fun kind tok hc => ?_, fun tok hc _ => ?_, fun hc _ => ?_⟩
    · obtain ⟨v, rfl⟩ := execute_success_of_write hc hrun
      rw [writeOperand_reg, if_neg hdst]
    · exact execute_success_eip_of_cmpl_pushl hc hrun
    · subst hc
      exact runPopl_success_eip hdst hrun
    · subst hc
      exact runJump_success_withEip hrun
    · subst hc
      obtain ⟨a, ha, -, rfl⟩ := runCall_success hrun
      exact ⟨a, ha, rfl⟩
    · subst hc
      obtain ⟨-, -, rfl⟩ := runRet_success hrun
      rfl
  · exact ⟨rfl, rfl, rfl, fun _ _ _ _ => rfl, fun _ _ _ => rfl, fun _ _ _ => rfl, fun _ _ _ => .inl rfl,
      fun _ _ he => absurd he e.result_ne_success, fun _ he => absurd he e.result_ne_success⟩

/-! ### EXEC_JUMP, EXEC_CALL, EXEC_RET (42_control_flow.md R121 to R129) -/

/-- Each kind of jump with its condition on the flag. -/
def jumpKinds (s : State) : List (JumpKind × Prop) :=
  [(.jmp, True), (.je, s.flag.value = 0), (.jne, s.flag.value ≠ 0), (.jl, s.flag.value = -1), (.jg, s.flag.value = 1)]

theorem cond_iff_of_mem_jumpKinds {s : State} {kind : JumpKind} {holds : Prop} (h : (kind, holds) ∈ jumpKinds s) :
    kind.cond s.flag = true ↔ holds := by
  simp only [jumpKinds, List.mem_cons, List.not_mem_nil, or_false, Prod.mk.injEq] at h
  obtain ⟨rfl, rfl⟩ | ⟨rfl, rfl⟩ | ⟨rfl, rfl⟩ | ⟨rfl, rfl⟩ | ⟨rfl, rfl⟩ := h
  · exact iff_of_true rfl trivial
  all_goals exact decide_eq_true_iff

/-- Settles O53: the operation reports the one jump executor, run with the kind's condition. -/
theorem hostJumpSetsEipWhenItsConditionHolds : Obligations.HostJumpSetsEipWhenItsConditionHolds := by
  intro s tok kind holds hprog hmem
  have hcond := cond_iff_of_mem_jumpKinds hmem
  refine ⟨fun hno => ?_, fun a hlabel => ?_⟩
  · exact hostExec_eq_report hprog (c := .jump kind tok) (runJump_of_noLabel hno _)
  have hhost := hostExec_eq_report hprog (c := .jump kind tok) (runJump_of_labelAddr hlabel _)
  refine ⟨fun hh => ?_, fun hh => ?_⟩
  · rw [hhost, if_pos (hcond.mpr hh)]
    rfl
  · rw [hhost, if_neg (mt hcond.mp hh)]
    rfl

/-- Settles O54: the operations report the executors of CALL and RET, whose states `afterCall` and `afterRet` are. -/
theorem hostCallAndRetReportTheirExecutors : Obligations.HostCallAndRetReportTheirExecutors := by
  refine ⟨fun s tok hprog => ⟨fun hno => ?_, fun a hlabel => ⟨fun hroom => ?_, fun hroom => ?_⟩⟩, ?_⟩
  · exact hostExec_eq_report hprog (c := .call tok) (runCall_of_noLabel hno)
  · exact hostExec_eq_report hprog (c := .call tok) (runCall_of_not_pushRoom hlabel hroom)
  · exact ⟨_, hostExec_eq_report hprog (c := .call tok) (runCall_of_pushRoom hlabel hroom),
      afterCall_storedOnly s a, afterCall_esp_toInt hroom a, afterCall_eip s a,
      fun _ hesp heip => afterCall_reg_of_ne s a hesp heip, afterCall_sameControl s a⟩
  · rintro s r hprog rfl
    refine ⟨fun hesp => ?_, fun hesp htop => ?_, fun hesp h0 hlt h4 => ?_⟩
    · exact hostExec_eq_report hprog (c := .ret) (runRet_of_not_validAddr hesp)
    · exact hostExec_eq_report hprog (c := .ret) (runRet_of_not_topNamesSlot hesp htop)
    · exact ⟨_, hostExec_eq_report hprog (c := .ret) (runRet_of_topNamesSlot hesp ⟨h0, hlt, h4⟩),
        afterRet_eip s, afterRet_esp s, fun _ hsp hip => afterRet_reg_of_ne s hsp hip, fun _ => rfl,
        afterRet_sameControl s⟩

/-! ### RUN (R150, R151) -/

/-- RUN does not step from a terminal status. -/
theorem runUntilStop_of_terminal {s : State} (h : s.status ≠ .running) (n : Nat) : runUntilStop n s = .ended s := by
  unfold runUntilStop
  exact if_neg h

section
variable {s : State} (hrun : s.status = .running)
include hrun

theorem runUntilStop_zero : runUntilStop 0 s = .outOfFuel s := by
  unfold runUntilStop
  exact if_pos hrun

/-- With a step left RUN goes on from the next state. -/
theorem runUntilStop_succ_of_next {u : State} (h : step s = .next u) (n : Nat) :
    runUntilStop (n + 1) s = runUntilStop n u := by
  rw [runUntilStop]
  simp only [hrun, h, if_true]

theorem runUntilStop_succ_of_refused {why : Refusal} (h : step s = .refused why) (n : Nat) :
    runUntilStop (n + 1) s = .refused why := by
  rw [runUntilStop]
  simp only [hrun, h, if_true]

/-- A step of a running machine answers no fault: an instruction that fails has a next state (R149). -/
theorem step_ne_fault (r : Fault) : step s ≠ .fault r := by
  have hexec (i : Instr) : exec i s ≠ .fault r := by
    obtain ⟨t, h⟩ := exists_exec_eq_next i s
    simp [h]
  cases hprog : s.programOk with
  | false => simp [step_of_illFormedProgram hrun hprog]
  | true =>
    cases hfetch : s.fetch with
    | outOfRange => simp [step_of_outOfRange hrun hprog hfetch]
    | misaligned => simp [step_of_misaligned hrun hprog hfetch]
    | line l =>
      rw [step_of_line hrun hprog hfetch, stepLine]
      split
      · exact hexec _
      · simp
      · simp

end

/-- A run that ends was at its end, or made a step and ends from there under one step less. -/
theorem runUntilStop_ended_cases {n : Nat} {s t : State} (h : runUntilStop n s = .ended t) :
    (s.status ≠ .running ∧ t = s) ∨
      ∃ k u, n = k + 1 ∧ s.status = .running ∧ step s = .next u ∧ runUntilStop k u = .ended t := by
  by_cases hrun : s.status = .running
  · right
    cases n with
    | zero =>
      rw [runUntilStop_zero hrun] at h
      cases h
    | succ k =>
      cases hstep : step s with
      | next u => exact ⟨k, u, rfl, hrun, rfl, (runUntilStop_succ_of_next hrun hstep k).symm.trans h⟩
      | fault r => exact absurd hstep (step_ne_fault hrun r)
      | refused why =>
        rw [runUntilStop_succ_of_refused hrun hstep] at h
        cases h
  · rw [runUntilStop_of_terminal hrun] at h
    exact .inl ⟨hrun, (RunOutcome.ended.inj h).symm⟩

/-- Settles O51, by induction on the bound: the first step is the same under every bound that allows it. -/
theorem runEndsAsItsStepsDoWhateverTheBound : Obligations.RunEndsAsItsStepsDoWhateverTheBound := by
  intro n
  induction n with
  | zero =>
    intro s t h
    obtain ⟨hend, rfl⟩ | ⟨k, u, hk, -⟩ := runUntilStop_ended_cases h
    · exact ⟨hend, ⟨0, le_rfl, rfl⟩, fun m _ => runUntilStop_of_terminal hend m⟩
    · cases hk
  | succ n ih =>
    intro s t h
    obtain ⟨hend, rfl⟩ | ⟨k, u, hk, hrun, hstep, hrest⟩ := runUntilStop_ended_cases h
    · exact ⟨hend, ⟨0, Nat.zero_le _, rfl⟩, fun m _ => runUntilStop_of_terminal hend m⟩
    · obtain rfl : n = k := Nat.succ.inj hk
      obtain ⟨hend, ⟨j, hj, hsteps⟩, hbound⟩ := ih u t hrest
      refine ⟨hend, ⟨j + 1, Nat.succ_le_succ hj, (stepTimes_succ_of_next hstep j).trans hsteps⟩, fun m hm => ?_⟩
      obtain ⟨m, rfl⟩ := Nat.exists_eq_add_one_of_ne_zero (Nat.ne_zero_of_lt hm)
      rw [runUntilStop_succ_of_next hrun hstep]
      exact hbound m (Nat.le_of_succ_le_succ hm)

end Sys2Proof.Machine
end

/-! ## Transfers to their own address (70_reset_and_hazards.md R183) -/

section
namespace Sys2Proof.Machine

/-- A jump to its own address is advanced past: taken it gives EIP the value it has, and not taken it leaves EIP alone
(43_sequencer.md R144). -/
theorem exec_jump_of_label_eq_pc {s : State} {tok : Token} {i : Instr} {holds : Prop}
    (hjump : (i, holds) ∈ jumpFamily s tok) (hlabel : LabelAddr s.imem tok s.pc) :
    exec i s = .next (s.withEip (wrap32 (s.pc + 4))) := by
  obtain ⟨-, hfound⟩ := jumpGoesToItsLabelWhenItsConditionHolds s tok i holds hjump
  obtain ⟨-, htaken, hnotTaken⟩ := hfound s.pc hlabel
  by_cases hh : holds
  · exact htaken hh (wrap32_toInt _)
  · exact hnotTaken hh

/-- A CALL to its own address leaves EIP there, one word further down the stack. -/
theorem exec_call_of_label_eq_pc {s : State} {tok : Token} (hlabel : LabelAddr s.imem tok s.pc) (hroom : PushRoom s) :
    ∃ t, exec (.call tok) s = .next t ∧ t.pc = s.pc ∧ (t.reg .esp).toInt = (s.reg .esp).toInt - 4
      ∧ SameControl s t := by
  refine ⟨_, exec_call_eq hlabel hroom, ?_, afterCall_esp_toInt hroom _, afterCall_sameControl s _⟩
  rw [State.pc, afterCall_eip, State.pc, wrap32_toInt]

/-- A RET whose top word is its own address leaves EIP there, one word further up the stack. -/
theorem exec_ret_of_top_eq_eip {s : State} (hesp : ValidAddr s.cfg (s.reg .esp).toInt)
    (htop : topOfStack s = s.reg .eip) (h0 : 0 ≤ s.pc) (hlt : s.pc < (s.imem.length : Int) * 4) (h4 : s.pc % 4 = 0) :
    ∃ t, exec .ret s = .next t ∧ t.pc = s.pc ∧ t.reg .esp = wrap32 ((s.reg .esp).toInt + 4) ∧ SameMemory s t
      ∧ SameControl s t := by
  have hslot : TopNamesSlot s := by
    rw [TopNamesSlot, htop]
    exact ⟨h0, hlt, h4⟩
  refine ⟨_, exec_ret_eq hesp hslot, ?_, afterRet_esp s, fun _ => rfl, afterRet_sameControl s⟩
  rw [State.pc, afterRet_eip, htop, State.pc]

/-- Settles O46: the sequencer adds 4 to an unchanged EIP after a jump, and nothing after CALL and RET (D17). -/
theorem jumpToItselfFallsThroughCallAndRetDoNot : Obligations.JumpToItselfFallsThroughCallAndRetDoNot := by
  refine fun s => ⟨fun tok i hlabel hi => ?_, fun _ => exec_call_of_label_eq_pc, exec_ret_of_top_eq_eip⟩
  have hi : i ∈ (jumpFamily s tok).map Prod.fst := hi
  obtain ⟨⟨_, holds⟩, hjump, rfl⟩ := List.mem_map.mp hi
  exact exec_jump_of_label_eq_pc hjump hlabel

end Sys2Proof.Machine
end
